-- ==== Sys2Proof/Word.lean ====
section
/-! DEFINITION. The word and byte types of the MD5 core and the four-word group it chains (spec/00_scope.md R8,
spec/10_state.md R21, R29). Bit-field and byte-order helpers are in Machine/Operands.lean. -/

namespace Sys2Proof

/-- A word: a 32-bit unsigned value (R8). `+`, `&&&`, `|||`, `^^^`, `~~~`, `<<<`, `>>>` on it are the operations of R9:
addition modulo 2^32, bitwise operators, logical shifts that fill with zeros. -/
abbrev Word := BitVec 32

/-- A byte: an 8-bit unsigned value (R8). -/
abbrev Byte := BitVec 8

/-- Four words named A, B, C, D: the chaining registers `st[0..3]` (R21), and the working registers `a, b, c, d` of one
compression (R29). -/
structure Quad where
  a : Word
  b : Word
  c : Word
  d : Word
deriving DecidableEq, Repr

/-- The block buffer's 64 bytes, `buf[0..63]` (R23); also the 64-byte block `B` a compression reads (R131). -/
abbrev Block := Vector Byte 64

end Sys2Proof
end

