-- ==== Sys2Proof/Syntax.lean ====
section
/-! DEFINITION. What reaches the core: bus accesses (format B), command words (format C) and the host's events
(spec/30_encoding.md R70 to R74, spec/00_scope.md R14). `Instr` has one constructor per row of spec/opcode_table.json. -/

namespace Sys2Proof

/-- The direction of a bus access: bit W of the descriptor (R71). -/
inductive Dir where
  | read
  | write
deriving DecidableEq, Repr

/-- One bus access as R90 takes it: `Access(dir, off, width, v)`. -/
structure BusAccess where
  /-- read or write -/
  dir : Dir
  /-- the byte offset in the 64-byte window, 0..63 (R50) -/
  off : BitVec 6
  /-- the access width in bits; only 32 is legal (R51) -/
  width : Nat
  /-- the value a write carries; a read ignores it (R90) -/
  value : Word
deriving DecidableEq, Repr

/-- What the outside world does to the core, in the order the core receives it (R14, R59, R170). -/
inductive HostEvent where
  /-- a bus access -/
  | access (a : BusAccess)
  /-- the platform's reset event, between two accesses (R170) -/
  | reset
  /-- an access issued while reset is being applied (R184) -/
  | accessDuringReset (a : BusAccess)
deriving DecidableEq, Repr

/-- The five commands of format C (R73). -/
inductive Command where
  | nop
  | init
  | absorb (n : BitVec 3)
  | final
  | clrerr
deriving DecidableEq, Repr

/-- The instructions: nine register accesses of format B and five commands of format C (R73; opcode_table.json). -/
inductive Instr where
  /-- `rd ID` (R91) -/
  | rdId
  /-- `rd STATUS` (R92) -/
  | rdStatus
  /-- `rd CMD` (R93) -/
  | rdCmd
  /-- `rd DATA` (R94) -/
  | rdData
  /-- `rd COUNT_LO` (R95) -/
  | rdCountLo
  /-- `rd COUNT_HI` (R96) -/
  | rdCountHi
  /-- `rd DIGESTn`, `n = OFF[3:2]` (R97) -/
  | rdDigest (n : BitVec 2)
  /-- `wr DATA, v` (R98) -/
  | wrData (v : Word)
  /-- `wr CMD, w`: the write whose value is decoded as format C (R99) -/
  | wrCmd (w : Word)
  /-- `nop` (R100) -/
  | nop
  /-- `init` (R101) -/
  | init
  /-- `absorb N`, `N = w[6:4]` (R102) -/
  | absorb (n : BitVec 3)
  /-- `final` (R104) -/
  | final
  /-- `clrerr` (R106) -/
  | clrerr
deriving DecidableEq, Repr

/-- The instruction a command is. -/
def Command.toInstr : Command → Instr
  | .nop => .nop
  | .init => .init
  | .absorb n => .absorb n
  | .final => .final
  | .clrerr => .clrerr

/-- The two forms of R70: a 7-bit bus descriptor with the value a write carries, or the command word of a `wr CMD`. -/
inductive Form where
  | formB (descriptor : BitVec 7) (value : Word)
  | formC (word : Word)
deriving DecidableEq, Repr

/-- Why an access is not legal (R51, R150): every one of these is BUS_ERR. -/
inductive BusErrReason where
  /-- the width is not 32 bits -/
  | badWidth
  /-- the offset is not a multiple of 4 -/
  | misaligned
  /-- a write to a read-only register -/
  | readOnly
  /-- a reserved offset -/
  | reservedOffset
deriving DecidableEq, Repr

/-- Why a command word is not legal (R75, R76): every one of these is ERR_CMD. -/
inductive CmdErrReason where
  /-- RSV is not 0 -/
  | reservedBits
  /-- OP is 0x5 to 0xF -/
  | reservedOp
  /-- OP is not 0x2 and N is not 0 -/
  | countNotZero
  /-- OP is 0x2 and N is 5 to 7 -/
  | countTooLarge
deriving DecidableEq, Repr

/-- Why the decoder rejects a form. -/
inductive DecodeError where
  | busError (reason : BusErrReason)
  | illegalCommand (reason : CmdErrReason)
deriving DecidableEq, Repr

end Sys2Proof
end

