-- ==== Sys2Proof/WellFormed.lean ====
section
/-! DEFINITION. Which instructions the spec gives an encoding: the operand range of spec/30_encoding.md R74. Every other
operand's range is its type (`n` of `rd DIGESTn` is two bits, a write value 32 bits). -/

namespace Sys2Proof

/-- The byte count of `absorb N` is 0 to 4 (R73, R74). -/
def countInRange (n : BitVec 3) : Bool := decide (n.toNat ≤ 4)

/-- The command has an encoding. -/
def Command.wf : Command → Bool
  | .absorb n => countInRange n
  | .nop => true
  | .init => true
  | .final => true
  | .clrerr => true

/-- The instruction has an encoding. -/
def Instr.wf : Instr → Bool
  | .absorb n => countInRange n
  | .rdId => true
  | .rdStatus => true
  | .rdCmd => true
  | .rdData => true
  | .rdCountLo => true
  | .rdCountHi => true
  | .rdDigest _ => true
  | .wrData _ => true
  | .wrCmd _ => true
  | .nop => true
  | .init => true
  | .final => true
  | .clrerr => true

/-- A well-formed instruction. -/
abbrev WellFormed (i : Instr) : Prop := i.wf = true

end Sys2Proof
end

