-- ==== Sys2Proof/Decode.lean ====
section
/-! DEFINITION. Decoding of bus accesses (format B) and command words (format C), total and rejecting by name, then the
encoder (spec/30_encoding.md R70 to R78, R81; spec/20_memory.md R51; spec/opcode_table.json). -/

namespace Sys2Proof

/-! ### Which accesses and words are legal, as the spec states it -/

/-- The offsets that hold a register (R31). -/
def mappedOffsets : List (BitVec 6) := [0x00, 0x04, 0x08, 0x0C, 0x10, 0x14, 0x20, 0x24, 0x28, 0x2C]

/-- The offsets that may be written (R31, R51). -/
def writableOffsets : List (BitVec 6) := [0x08, 0x0C]

/-- `legal(dir, off, width)` of R51. -/
def legal (dir : Dir) (off : BitVec 6) (width : Nat) : Bool :=
  decide (width = 32) && decide (off.toNat % 4 = 0) &&
    (match dir with
     | .read => mappedOffsets.contains off
     | .write => writableOffsets.contains off)

/-- OP, the operation code of a command word: bits 3:0 (R72). -/
def opField (w : Word) : BitVec 4 := w.extractLsb' 0 4

/-- N, the byte count of a command word: bits 6:4 (R72, R74). -/
def countField (w : Word) : BitVec 3 := w.extractLsb' 4 3

/-- RSV, the reserved field of a command word: bits 31:7 (R72). -/
def rsvField (w : Word) : BitVec 25 := w.extractLsb' 7 25

/-- `legal_cmd(w)` of R75. -/
def legalCmd (w : Word) : Bool :=
  (rsvField w == 0) &&
    (((opField w == 0x0 || opField w == 0x1 || opField w == 0x3 || opField w == 0x4) && countField w == 0)
      || (opField w == 0x2 && decide ((countField w).toNat ≤ 4)))

/-! ### Decoding -/

/-- Bit W of a descriptor: bit 6 (R71). -/
def descriptorDir (d : BitVec 7) : Dir := if d.getLsbD 6 then .write else .read

/-- OFF of a descriptor: bits 5:0 (R71). -/
def descriptorOff (d : BitVec 7) : BitVec 6 := d.extractLsb' 0 6

/-- The descriptor of an access: W, then OFF (R71). -/
def descriptorOf (dir : Dir) (off : BitVec 6) : BitVec 7 :=
  match dir with
  | .read => (0#1) ++ off
  | .write => (1#1) ++ off

/-- Why a descriptor that is none of R73's is a bus error (R51, R76). -/
def descriptorError (d : BitVec 7) : BusErrReason :=
  if (descriptorOff d).toNat % 4 ≠ 0 then .misaligned
  else if descriptorDir d = .write ∧ mappedOffsets.contains (descriptorOff d) then .readOnly
  else .reservedOffset

/-- The format-B instruction of a descriptor, by the match and mask of each row of R73 and opcode_table.json. -/
def decodeDescriptor (d : BitVec 7) (v : Word) : Except BusErrReason Instr :=
  if d = 0x00 then .ok .rdId
  else if d = 0x04 then .ok .rdStatus
  else if d = 0x08 then .ok .rdCmd
  else if d = 0x0C then .ok .rdData
  else if d = 0x10 then .ok .rdCountLo
  else if d = 0x14 then .ok .rdCountHi
  else if d &&& 0x73 = 0x20 then .ok (.rdDigest (d.extractLsb' 2 2))
  else if d = 0x4C then .ok (.wrData v)
  else if d = 0x48 then .ok (.wrCmd v)
  else .error (descriptorError d)

/-- The instruction of a bus access: its width first, then its descriptor (R51, R71, R78). -/
def decodeAccess (a : BusAccess) : Except BusErrReason Instr :=
  if a.width ≠ 32 then .error .badWidth
  else decodeDescriptor (descriptorOf a.dir a.off) a.value

/-- The command of a command word (R72 to R76). -/
def decodeCommand (w : Word) : Except CmdErrReason Command :=
  if rsvField w ≠ 0 then .error .reservedBits
  else if opField w = 0x2 then
    if countInRange (countField w) then .ok (.absorb (countField w)) else .error .countTooLarge
  else if opField w = 0x0 then
    if countField w = 0 then .ok .nop else .error .countNotZero
  else if opField w = 0x1 then
    if countField w = 0 then .ok .init else .error .countNotZero
  else if opField w = 0x3 then
    if countField w = 0 then .ok .final else .error .countNotZero
  else if opField w = 0x4 then
    if countField w = 0 then .ok .clrerr else .error .countNotZero
  else .error .reservedOp

/-- Decoding of either form (R70, R78). -/
def decode : Form → Except DecodeError Instr
  | .formB d v =>
    match decodeDescriptor d v with
    | .ok i => .ok i
    | .error r => .error (.busError r)
  | .formC w =>
    match decodeCommand w with
    | .ok c => .ok c.toInstr
    | .error r => .error (.illegalCommand r)

/-- The bus access that carries a form: a descriptor is a 32-bit access, a command word is the value of a `wr CMD` (R70,
R71). -/
def Form.toAccess : Form → BusAccess
  | .formB d v => { dir := descriptorDir d, off := descriptorOff d, width := 32, value := v }
  | .formC w => { dir := .write, off := 0x08, width := 32, value := w }

/-! ### Encoding -/

/-- The word of a command (R72, R73). -/
def encodeCommand : Command → Word
  | .nop => 0x00000000
  | .init => 0x00000001
  | .absorb n => 0x00000002 ||| (n.setWidth 32 <<< 4)
  | .final => 0x00000003
  | .clrerr => 0x00000004

/-- The form of an instruction: descriptor and value, or command word (R73, R81). A read carries no value, written 0. -/
def encode : Instr → Form
  | .rdId => .formB 0x00 0
  | .rdStatus => .formB 0x04 0
  | .rdCmd => .formB 0x08 0
  | .rdData => .formB 0x0C 0
  | .rdCountLo => .formB 0x10 0
  | .rdCountHi => .formB 0x14 0
  | .rdDigest n => .formB (0x20 ||| (n.setWidth 7 <<< 2)) 0
  | .wrData v => .formB 0x4C v
  | .wrCmd w => .formB 0x48 w
  | .nop => .formC (encodeCommand .nop)
  | .init => .formC (encodeCommand .init)
  | .absorb n => .formC (encodeCommand (.absorb n))
  | .final => .formC (encodeCommand .final)
  | .clrerr => .formC (encodeCommand .clrerr)

/-- The bus access by which a host issues an instruction (R79, R81). -/
def accessOf (i : Instr) : BusAccess := (encode i).toAccess

/-! ### The opcode table's numbering -/

/-- The form whose bits are `w`: up to 8 bits are a format-B descriptor (7 bits, its write value zero), up to 32 a command
word (R71, R72). -/
def tableForm (nbits w : Nat) : Option Form :=
  if nbits ≤ 8 then
    if w < 128 then some (.formB (BitVec.ofNat 7 w) 0) else none
  else if nbits ≤ 32 then
    if w < 2 ^ 32 then some (.formC (BitVec.ofNat 32 w)) else none
  else none

/-- The instruction the decoder reads from an instruction whose bits are `w`, as opcode_table.json numbers them. -/
def decodeTableWord (nbits w : Nat) : Option Instr :=
  match tableForm nbits w with
  | none => none
  | some f =>
    match decode f with
    | .ok i => some i
    | .error _ => none

/-- The bus access that carries those bits; bits that are no form give an access of no legal width. -/
def tableAccess (nbits w : Nat) : BusAccess :=
  match tableForm nbits w with
  | some f => f.toAccess
  | none => { dir := .read, off := 0, width := 0, value := 0 }

end Sys2Proof
end

