-- ==== Sys2Proof/Machine/Constants.lean ====
section
/-! DEFINITION. The constants: the initial chaining value, the identification value, and the tables T, S, K of the
compression (spec/10_state.md R22, R33; spec/41_compression.md R125 to R127). The spec gives these values, those of RFC 1321
as general knowledge (spec/93_implementation_defined.md G1, G11 to G13). -/

namespace Sys2Proof.Machine

/-- IV, the initial chaining value (R22). -/
def iv : Quad := { a := 0x67452301, b := 0xEFCDAB89, c := 0x98BADCFE, d := 0x10325476 }

/-- The value ID reads: ASCII "MD5" and interface version 1 (R33). -/
def idValue : Word := 0x4D443501

/-- T[0..15] (R125). -/
def tableT1 : List Word :=
  [0xD76AA478, 0xE8C7B756, 0x242070DB, 0xC1BDCEEE, 0xF57C0FAF, 0x4787C62A, 0xA8304613, 0xFD469501,
   0x698098D8, 0x8B44F7AF, 0xFFFF5BB1, 0x895CD7BE, 0x6B901122, 0xFD987193, 0xA679438E, 0x49B40821]

/-- T[16..31] (R125). -/
def tableT2 : List Word :=
  [0xF61E2562, 0xC040B340, 0x265E5A51, 0xE9B6C7AA, 0xD62F105D, 0x02441453, 0xD8A1E681, 0xE7D3FBC8,
   0x21E1CDE6, 0xC33707D6, 0xF4D50D87, 0x455A14ED, 0xA9E3E905, 0xFCEFA3F8, 0x676F02D9, 0x8D2A4C8A]

/-- T[32..47] (R125). -/
def tableT3 : List Word :=
  [0xFFFA3942, 0x8771F681, 0x6D9D6122, 0xFDE5380C, 0xA4BEEA44, 0x4BDECFA9, 0xF6BB4B60, 0xBEBFBC70,
   0x289B7EC6, 0xEAA127FA, 0xD4EF3085, 0x04881D05, 0xD9D4D039, 0xE6DB99E5, 0x1FA27CF8, 0xC4AC5665]

/-- T[48..63] (R125). -/
def tableT4 : List Word :=
  [0xF4292244, 0x432AFF97, 0xAB9423A7, 0xFC93A039, 0x655B59C3, 0x8F0CCC92, 0xFFEFF47D, 0x85845DD1,
   0x6FA87E4F, 0xFE2CE6E0, 0xA3014314, 0x4E0811A1, 0xF7537E82, 0xBD3AF235, 0x2AD7D2BB, 0xEB86D391]

/-- The 64 additive constants (R125): the literal values, not the sine. -/
def tableT : List Word := tableT1 ++ tableT2 ++ tableT3 ++ tableT4

/-- `T[i]` for `i` in 0..63 (R125). -/
def constT (i : Nat) : Word := tableT.getD i 0

/-- The rotation amounts of round `i div 16`, at `i mod 4` = 0, 1, 2, 3 (R126). -/
def roundShifts (i : Nat) : List Nat :=
  if i < 16 then [7, 12, 17, 22]
  else if i < 32 then [5, 9, 14, 20]
  else if i < 48 then [4, 11, 16, 23]
  else [6, 10, 15, 21]

/-- `S[i]` for `i` in 0..63 (R126). -/
def constS (i : Nat) : Nat := (roundShifts i).getD (i % 4) 0

/-- `K[i]` for `i` in 0..63 (R127). -/
def constK (i : Nat) : Fin 16 :=
  if i < 16 then Fin.ofNat 16 i
  else if i < 32 then Fin.ofNat 16 (5 * i + 1)
  else if i < 48 then Fin.ofNat 16 (3 * i + 5)
  else Fin.ofNat 16 (7 * i)

end Sys2Proof.Machine
end

