-- ==== Sys2Proof/Machine/Operands.lean ====
section
/-! DEFINITION. The operand forms: byte lanes, message-word packing, the length field, rotation (spec/00_scope.md R8 to
R10, spec/20_memory.md R52 to R56, spec/41_compression.md R124). -/

namespace Sys2Proof.Machine

/-- `le32(b0, b1, b2, b3)`: the word with `b0` in its low byte (R10). -/
def le32 (b0 b1 b2 b3 : Byte) : Word := b3 ++ b2 ++ b1 ++ b0

/-- Byte lane `k` of a register value: bits `8k+7:8k` (R52, R56). -/
def lane (v : Word) (k : Nat) : Byte := v.extractLsb' (8 * k) 8

/-- The message bytes `absorb N` takes: lanes 0 to N-1, in that order (R56). -/
def lanes (v : Word) (n : Nat) : List Byte := (List.range n).map (lane v)

/-- `le64bytes(v)`: the eight bytes of a 64-bit value, least significant first (R10, R54). -/
def le64bytes (v : BitVec 64) : List Byte := (List.range 8).map fun k => v.extractLsb' (8 * k) 8

/-- `rotl32(x, s)` (R124). -/
def rotl32 (x : Word) (s : Nat) : Word := (x <<< s) ||| (x >>> (32 - s))

/-- Message word `X[j]` of a block: four consecutive bytes, little-endian (R23, R53). -/
def messageWord (b : Block) (j : Fin 16) : Word :=
  le32 b[4 * j.val] b[4 * j.val + 1] b[4 * j.val + 2] b[4 * j.val + 3]

/-- The 64 bytes of a list at indices 64q to 64q+63; a byte the list does not hold is 0. -/
def blockAt (p : List Byte) (q : Nat) : Block :=
  ⟨((List.range 64).map fun k => p.getD (64 * q + k) 0).toArray, by simp⟩

/-- Word `n` of a group of four: `st[n]` (R21). -/
def quadWord (q : Quad) (n : BitVec 2) : Word :=
  if n = 0 then q.a else if n = 1 then q.b else if n = 2 then q.c else q.d

/-- The 16 digest bytes of the chaining words: `digest[4n+k] = st[n][8k+7:8k]` (R55). -/
def digestBytes (q : Quad) : List Byte :=
  lanes q.a 4 ++ lanes q.b 4 ++ lanes q.c 4 ++ lanes q.d 4

/-- The low half of the byte counter, `count[31:0]` (R37). -/
def countLow (c : BitVec 64) : Word := c.extractLsb' 0 32

/-- The high half of the byte counter, `count[63:32]` (R37). -/
def countHigh (c : BitVec 64) : Word := c.extractLsb' 32 32

end Sys2Proof.Machine
end

