-- ==== Sys2Proof/Machine/Compression.lean ====
section
/-! DEFINITION. The MD5 compression function (spec/41_compression.md R119 to R131). The working registers `a, b, c, d` and
the step index `i` are local to it (spec/10_state.md R29). -/

namespace Sys2Proof.Machine

/-- F, the round-1 function (R120). -/
def roundF (x y z : Word) : Word := (x &&& y) ||| (~~~x &&& z)

/-- G, the round-2 function (R121). -/
def roundG (x y z : Word) : Word := (x &&& z) ||| (y &&& ~~~z)

/-- H, the round-3 function (R122). -/
def roundH (x y z : Word) : Word := x ^^^ y ^^^ z

/-- I, the round-4 function (R123). -/
def roundI (x y z : Word) : Word := y ^^^ (x ||| ~~~z)

/-- `fn(i)`, the round function of step `i` (R128). -/
def roundFn (i : Nat) (x y z : Word) : Word :=
  if i < 16 then roundF x y z
  else if i < 32 then roundG x y z
  else if i < 48 then roundH x y z
  else roundI x y z

/-- The message word step `i` adds: `X[K[i]]` (R127, R130). -/
def stepWord (blk : Block) (i : Nat) : Word := messageWord blk (constK i)

/-- Step, one of the 64 steps (R130). -/
def md5Step (blk : Block) (r : Quad) (i : Nat) : Quad :=
  { a := r.d
    b := r.b + rotl32 (r.a + roundFn i r.b r.c r.d + stepWord blk i + constT i) (constS i)
    c := r.b
    d := r.c }

/-- The feed-forward: word by word, modulo 2^32 (R131). -/
def feedForward (h r : Quad) : Quad :=
  { a := h.a + r.a, b := h.b + r.b, c := h.c + r.c, d := h.d + r.d }

/-- The working registers after the first `n` steps, in increasing order of `i` (R131). -/
def md5Steps (blk : Block) (h : Quad) (n : Nat) : Quad := (List.range n).foldl (md5Step blk) h

/-- Compress, the compression function (R131). -/
def compress (h : Quad) (blk : Block) : Quad := feedForward h (md5Steps blk h 64)

end Sys2Proof.Machine
end

