-- ==== Sys2Proof/Machine/State.lean ====
section
/-! DEFINITION. The core's state, its value after reset, and the reasons a step can stop (spec/10_state.md R20 to R30, R40;
spec/60_exceptions.md R150). The core has no program counter, no instruction memory and no data memory (R20, R39). -/

namespace Sys2Proof.Machine

/-- What the bus answered to the last completed access. The model's own field, not the spec's state: R90's `return`. -/
inductive BusResponse where
  /-- no access has completed since reset -/
  | idle
  /-- a write completed -/
  | ok
  /-- a read completed and returned this word -/
  | data (w : Word)
deriving DecidableEq, Repr

/-- The state of one MD5 core. -/
structure State where
  /-- the chaining registers `st[0..3]`, also A, B, C, D (R21) -/
  st : Quad
  /-- the block buffer `buf[0..63]` (R23) -/
  buf : Block
  /-- the number of bytes held in `buf`, 0..63 (R24) -/
  level : BitVec 6
  /-- the byte counter (R25) -/
  count : BitVec 64
  /-- the lifecycle flag (R26) -/
  done : Bool
  /-- the sticky flag of a malformed command word (R27) -/
  errCmd : Bool
  /-- the sticky flag of an update or finalize after finalize (R27) -/
  errSeq : Bool
  /-- the DATA holding register (R28) -/
  data : Word
  /-- the model's own: what the host has issued and the core has not yet performed, oldest first (R14, R59) -/
  pending : List HostEvent
  /-- the model's own: the bus's answer to the last completed access (R90) -/
  response : BusResponse
deriving DecidableEq, Repr

/-- The all-zero block buffer (R23). -/
def zeroBlock : Block := Vector.replicate 64 0

/-- The state right after reset (R40). -/
def State.reset : State :=
  { st := iv
    buf := zeroBlock
    level := 0
    count := 0
    done := false
    errCmd := false
    errSeq := false
    data := 0
    pending := []
    response := .idle }

/-- The error causes of R150. -/
inductive ErrorCause where
  /-- BUS_ERR, code 1: an access that is not legal (R151) -/
  | busErr (reason : BusErrReason) (off : BitVec 6)
  /-- ERR_CMD, code 2: a command word that is not legal (R152) -/
  | errCmd
  /-- ERR_SEQ, code 3: ABSORB or FINAL while `done = 1` (R153) -/
  | errSeq
deriving DecidableEq, Repr

/-- Reasons the machine stops with a fault. -/
inductive Fault where
  /-- BUS_ERR (R151; spec/93_implementation_defined.md U1 to U4). Raised by `raiseError`, for an access that no format-B
  instruction decodes. Safe: the hardware answers an error, changes nothing and goes on; the model's step stops. -/
  | busErr (reason : BusErrReason) (off : BitVec 6)
deriving DecidableEq, Repr

/-- Reasons the model has no transition. -/
inductive Refusal where
  /-- Raised by an arm of exec whose instruction has no meaning yet. Safe. -/
  | notModelled (mnemonic : String)
  /-- An access issued while reset is being applied (R184; spec/93_implementation_defined.md U9). Raised by
  `refuseDuringReset`. Safe: the spec says what such an access does is not specified. -/
  | accessDuringReset
deriving DecidableEq, Repr

end Sys2Proof.Machine
end

