-- ==== Sys2Proof/Machine/Flags.lean ====
section
/-! DEFINITION. The flags DONE, ERR_CMD and ERR_SEQ and the STATUS word made of them (spec/10_state.md R26, R27, R34;
spec/60_exceptions.md R152, R153, R156). The core has no arithmetic condition codes (R27). -/

namespace Sys2Proof.Machine

/-- A one-bit flag as a word: `zext_32` (R8, R34). -/
def flagWord (b : Bool) : Word := (BitVec.ofBool b).setWidth 32

/-- The STATUS word (R34). -/
def statusWord (s : State) : Word :=
  flagWord s.done ||| (s.level.setWidth 32 <<< 8) ||| (flagWord s.errCmd <<< 16) ||| (flagWord s.errSeq <<< 17)

/-- `record ERR_CMD` (R152). -/
def recordErrCmd (s : State) : State := { s with errCmd := true }

/-- `record ERR_SEQ` (R153). -/
def recordErrSeq (s : State) : State := { s with errSeq := true }

/-- Both sticky flags cleared (R106). -/
def clearErrors (s : State) : State := { s with errCmd := false, errSeq := false }

/-- `done <- 1` (R104). -/
def setDone (s : State) : State := { s with done := true }

end Sys2Proof.Machine
end

