-- ==== Sys2Proof/Machine/Ops.lean ====
section
/-! DEFINITION. The operations the instructions share: answering the bus, recording an error, appending a byte, folding a
full buffer, the padding, the initial context, reset (spec/40_commands.md R101 to R106, spec/41_compression.md R132,
spec/60_exceptions.md R150 to R158, spec/70_reset_and_hazards.md R170, R184). -/

namespace Sys2Proof.Machine

/-! ### The bus -/

/-- The bus answers `r` (R90). -/
def respond (r : BusResponse) (s : State) : State := { s with response := r }

/-- A read completes and returns `w` (R90). -/
def answerRead (w : Word) (s : State) : Host.Outcome State Fault Refusal := .next (respond (.data w) s)

/-- A write completes (R90, R152: a command error's bus access completes normally too). -/
def completeWrite (s : State) : Host.Outcome State Fault Refusal := .next (respond .ok s)

/-- `data <- v` (R98). -/
def storeData (v : Word) (s : State) : State := { s with data := v }

/-! ### Errors -/

/-- The code of an error cause (R150). -/
def ErrorCause.code : ErrorCause → Nat
  | .busErr _ _ => 1
  | .errCmd => 2
  | .errSeq => 3

/-- Taking an error: only its recording, no saved state and no transfer of control (R150 to R154, R157). -/
def raiseError (c : ErrorCause) (s : State) : Host.Outcome State Fault Refusal :=
  match c with
  | .busErr reason off => .fault (.busErr reason off)
  | .errCmd => completeWrite (recordErrCmd s)
  | .errSeq => completeWrite (recordErrSeq s)

/-- The only return from an error: CLRERR (R158). -/
def returnFromError (s : State) : Host.Outcome State Fault Refusal := completeWrite (clearErrors s)

/-! ### The context -/

/-- ProcessBlock: the full buffer folded into the chaining state, then emptied (R132). -/
def processBlock (s : State) : State :=
  { s with st := compress s.st s.buf, buf := zeroBlock, level := 0 }

/-- `buf[level] <- x` (R103, R104). -/
def putByte (x : Byte) (s : State) : State :=
  { s with buf := s.buf.set s.level.toNat x s.level.isLt }

/-- A byte appended to the buffer, and the buffer folded when the byte fills it (R103, R104). -/
def pushByte (x : Byte) (s : State) : State :=
  if s.level = 63 then processBlock (putByte x s)
  else { putByte x s with level := s.level + 1 }

/-- Bytes appended in order. -/
def pushBytes (xs : List Byte) (s : State) : State := xs.foldl (fun t x => pushByte x t) s

/-- The counter advanced by one byte, modulo 2^64 (R25). -/
def countByte (s : State) : State := { s with count := s.count + 1 }

/-- AbsorbByte, the append of one message byte (R103). -/
def absorbByte (x : Byte) (s : State) : State := pushByte x (countByte s)

/-- Message bytes absorbed in order (R102). -/
def absorbBytes (xs : List Byte) (s : State) : State := xs.foldl (fun t x => absorbByte x t) s

/-- The number of zero bytes of the padding, `(55 - level) mod 64` (R105). -/
def padZeros (level : BitVec 6) : Nat := (55 - level).toNat

/-- Pad, the padding string (R105). -/
def pad (level : BitVec 6) (bits : BitVec 64) : List Byte :=
  0x80 :: (List.replicate (padZeros level) 0 ++ le64bytes bits)

/-- The length in bits, `(count * 8) mod 2^64` (R104). -/
def bitLength (count : BitVec 64) : BitVec 64 := count * 8

/-- Padding, the last compressions, and `done <- 1` (R104). -/
def finish (s : State) : State := setDone (pushBytes (pad s.level (bitLength s.count)) s)

/-- The initial context: IV, empty buffer, count 0, `done <- 0` (R101). -/
def initContext (s : State) : State :=
  { s with st := iv, buf := zeroBlock, level := 0, count := 0, done := false }

/-! ### The host's events -/

/-- The oldest event is taken off the queue (R59). -/
def dropEvent (s : State) : State := { s with pending := s.pending.tail }

/-- An event put where the next step takes it. -/
def postNext (e : HostEvent) (s : State) : State := { s with pending := e :: s.pending }

/-- The reset event: every state element at its reset value (R170). The accesses the host has still to make stay. -/
def applyReset (s : State) : State := { State.reset with pending := s.pending }

/-- An access that is not legal (R90, R151). -/
def busError (reason : BusErrReason) (off : BitVec 6) (s : State) : Host.Outcome State Fault Refusal :=
  raiseError (.busErr reason off) s

/-- An access while reset is being applied: not specified, so refused (R184). -/
def refuseDuringReset (_a : BusAccess) (_s : State) : Host.Outcome State Fault Refusal :=
  .refused .accessDuringReset

end Sys2Proof.Machine
end

