-- ==== Sys2Proof/Machine/Commands.lean ====
section
/-! DEFINITION. The two register writes and the five commands (spec/40_commands.md R98 to R106). -/

namespace Sys2Proof.Machine

/-- `nop` (R100). -/
def execNop (s : State) : Host.Outcome State Fault Refusal := completeWrite s

/-- `init` (R101): legal in every state; the error flags and DATA are kept. -/
def execInit (s : State) : Host.Outcome State Fault Refusal := completeWrite (initContext s)

/-- `absorb N` (R102). An N of 5 to 7 is ERR_CMD and comes before the lifecycle check (R99, R155). -/
def execAbsorb (n : BitVec 3) (s : State) : Host.Outcome State Fault Refusal :=
  if countInRange n then
    if s.done then raiseError .errSeq s
    else completeWrite (absorbBytes (lanes s.data n.toNat) s)
  else raiseError .errCmd s

/-- `final` (R104). -/
def execFinal (s : State) : Host.Outcome State Fault Refusal :=
  if s.done then raiseError .errSeq s else completeWrite (finish s)

/-- `clrerr` (R106). -/
def execClrerr (s : State) : Host.Outcome State Fault Refusal := returnFromError s

/-- `wr DATA, v` (R98). -/
def execWrData (v : Word) (s : State) : Host.Outcome State Fault Refusal := completeWrite (storeData v s)

/-- `wr CMD, w` (R99): the word is decoded as format C, and an illegal word is ERR_CMD (R152). -/
def execWrCmd (w : Word) (s : State) : Host.Outcome State Fault Refusal :=
  match decodeCommand w with
  | .error _ => raiseError .errCmd s
  | .ok .nop => execNop s
  | .ok .init => execInit s
  | .ok (.absorb n) => execAbsorb n s
  | .ok .final => execFinal s
  | .ok .clrerr => execClrerr s

end Sys2Proof.Machine
end

