-- ==== Sys2Proof/Machine/Reads.lean ====
section
/-! DEFINITION. The register reads (spec/40_commands.md R91 to R97). No read has a side effect (spec/20_memory.md R58). -/

namespace Sys2Proof.Machine

/-- `rd ID` (R91). -/
def execRdId (s : State) : Host.Outcome State Fault Refusal := answerRead idValue s

/-- `rd STATUS` (R92). -/
def execRdStatus (s : State) : Host.Outcome State Fault Refusal := answerRead (statusWord s) s

/-- `rd CMD` (R93): CMD has no storage and reads 0 (R35). -/
def execRdCmd (s : State) : Host.Outcome State Fault Refusal := answerRead 0 s

/-- `rd DATA` (R94). -/
def execRdData (s : State) : Host.Outcome State Fault Refusal := answerRead s.data s

/-- `rd COUNT_LO` (R95). -/
def execRdCountLo (s : State) : Host.Outcome State Fault Refusal := answerRead (countLow s.count) s

/-- `rd COUNT_HI` (R96). -/
def execRdCountHi (s : State) : Host.Outcome State Fault Refusal := answerRead (countHigh s.count) s

/-- `rd DIGESTn` (R97): the chaining word as it stands, before or after FINAL (R38). -/
def execRdDigest (n : BitVec 2) (s : State) : Host.Outcome State Fault Refusal := answerRead (quadWord s.st n) s

end Sys2Proof.Machine
end

