-- ==== Sys2Proof/Machine/Step.lean ====
section
/-! DEFINITION. One step of the core: the oldest of the host's pending events, performed as one atomic transition
(spec/00_scope.md R14, spec/20_memory.md R57, R59, spec/40_commands.md R90). -/

namespace Sys2Proof.Machine

/-- One event performed in the state that no longer lists it (R90, R170, R184). -/
def performEvent (e : HostEvent) (s : State) : Host.Outcome State Fault Refusal :=
  match e with
  | .access a =>
    match decodeAccess a with
    | .ok i => exec i s
    | .error r => busError r a.off s
  | .reset => .next (applyReset s)
  | .accessDuringReset a => refuseDuringReset a s

/-- One step (R90). With no event pending the core does nothing: it never starts an action of its own (R14). -/
def step (s : State) : Host.Outcome State Fault Refusal :=
  match s.pending with
  | [] => .next s
  | e :: _ => performEvent e (dropEvent s)

/-- The access that carries these bits of the opcode table, issued as the next event. -/
def State.withFetchWord (s : State) (nbits w : Nat) : State :=
  postNext (.access (tableAccess nbits w)) s

end Sys2Proof.Machine
end

