-- ==== Sys2Proof/Config.lean ====
section
/-! DEFINITION. The open parameters of spec/00_scope.md R7 (see also spec/10_state.md R41): free values with no body, so
that no proof can rest on a particular value. The constant tables are in Machine/Constants.lean. -/

namespace Sys2Proof.Config

/-- Where the first instance's window stands, counted in units of 64 bytes: any number (R7, R50). -/
opaque firstPage : Nat

/-- The number of free 64-byte units between the window of instance `i` and that of instance `i + 1`, the instances
numbered by rising address: any numbers (R164). -/
opaque pageGap : Nat → Nat

/-- How many MD5 cores the platform has beyond the first: any number (R7, R164). -/
opaque moreInstances : Nat

/-- CMD_LATENCY (R7, R183): how long a write of this command word holds the bus when it performs this many compressions.
No rule depends on it. -/
opaque cmdLatency : Word → Nat → Nat

/-- BUSERR_RDATA (R7, R151): the data that comes with a bus-error response to a read. -/
opaque busErrRdata : Word

/-- The 64-byte unit in which the window of instance `i` stands. -/
def instancePage : Nat → Nat
  | 0 => firstPage
  | i + 1 => instancePage i + 1 + pageGap i

/-- The base address of instance `i`'s window: a multiple of 64, each instance its own (R7, R50, R164). -/
def instanceBase (i : Nat) : Nat := 64 * instancePage i

/-- MD5_BASE: the base address of the one core's window, a multiple of 64 (R7, R50). -/
def md5Base : Nat := instanceBase 0

/-- N_INSTANCES: at least 1 (R7, R164). -/
def nInstances : Nat := moreInstances + 1

end Sys2Proof.Config
end

