-- ==== Sys2Proof/Machine/Reference.lean ====
section
/-! DEFINITION. MD5, the reference function the core computes, and the host's reading of the digest
(spec/41_compression.md R133, spec/40_commands.md R107). -/

namespace Sys2Proof.Machine

/-- The padded message, `m || Pad(len(m) mod 64, (8 * len(m)) mod 2^64)` (R133). -/
def paddedMessage (m : List Byte) : List Byte :=
  m ++ pad (BitVec.ofNat 6 m.length) (BitVec.ofNat 64 (8 * m.length))

/-- The first `n` 64-byte blocks of `p` folded into IV, in order (R133). -/
def foldBlocks (p : List Byte) (n : Nat) : Quad :=
  (List.range n).foldl (fun h q => compress h (blockAt p q)) iv

/-- The chaining words MD5 ends with (R133). -/
def md5Words (m : List Byte) : Quad := foldBlocks (paddedMessage m) ((paddedMessage m).length / 64)

/-- MD5(m): the 16 digest bytes (R133, R55). -/
def md5 (m : List Byte) : List Byte := digestBytes (md5Words m)

/-- RFC 1321's own form of a step, `a = b + ((a + fn(b,c,d) + X[k] + T[i]) <<< s)`, with the operands permuted from step to
step instead of the registers renamed (R130). -/
def rfcStep (blk : Block) (r : Quad) (i : Nat) : Quad :=
  if i % 4 = 0 then
    { r with a := r.b + rotl32 (r.a + roundFn i r.b r.c r.d + stepWord blk i + constT i) (constS i) }
  else if i % 4 = 1 then
    { r with d := r.a + rotl32 (r.d + roundFn i r.a r.b r.c + stepWord blk i + constT i) (constS i) }
  else if i % 4 = 2 then
    { r with c := r.d + rotl32 (r.c + roundFn i r.d r.a r.b + stepWord blk i + constT i) (constS i) }
  else
    { r with b := r.c + rotl32 (r.b + roundFn i r.c r.d r.a + stepWord blk i + constT i) (constS i) }

/-- HEX, the sixteen characters of the rendering (R107). -/
def hexAlphabet : List Char :=
  ['0', '1', '2', '3', '4', '5', '6', '7', '8', '9', 'A', 'B', 'C', 'D', 'E', 'F']

/-- The two characters of a byte, high nibble first (R107). -/
def hexPair (b : Byte) : List Char :=
  [hexAlphabet.getD (b >>> 4).toNat '0', hexAlphabet.getD (b &&& 0x0F).toNat '0']

/-- Hex rendering, without separators, in byte order (R107). -/
def hexRender (bs : List Byte) : List Char := bs.flatMap hexPair

end Sys2Proof.Machine
end

