-- ==== Sys2Proof/Machine/HostRun.lean ====
section
/-! DEFINITION. The host's side: the two bus primitives, the pseudo-instructions, a run of instructions, and what the host
sees of a sequence of events (spec/00_scope.md R11, spec/30_encoding.md R79, R80, spec/60_exceptions.md R151, R154). -/

namespace Sys2Proof.Machine

/-- `RegRead(off)`: a 32-bit read (R11). -/
def regRead (off : BitVec 6) : BusAccess := { dir := .read, off := off, width := 32, value := 0 }

/-- `RegWrite(off, v)`: a 32-bit write (R11). -/
def regWrite (off : BitVec 6) (v : Word) : BusAccess := { dir := .write, off := off, width := 32, value := v }

/-! ### Pseudo-instructions (R80) -/

/-- `pushw v` -/
def pushw (v : Word) : List Instr := [.wrData v, .absorb 4]

/-- `pushn v, N` -/
def pushn (v : Word) (n : BitVec 3) : List Instr := [.wrData v, .absorb n]

/-- `pushb b` -/
def pushb (b : Byte) : List Instr := [.wrData (b.setWidth 32), .absorb 1]

/-- `rddigest` -/
def rddigest : List Instr := [.rdDigest 0, .rdDigest 1, .rdDigest 2, .rdDigest 3]

/-- The word `le32(s[4q..4q+3])` of a byte string, a byte it does not hold taken as zero (R80). -/
def wordAt (m : List Byte) (q : Nat) : Word :=
  le32 (m.getD (4 * q) 0) (m.getD (4 * q + 1) 0) (m.getD (4 * q + 2) 0) (m.getD (4 * q + 3) 0)

/-- `hash "s"`: init, four bytes per absorb, the short tail where there is one, final (R80). -/
def hashProgram (m : List Byte) : List Instr :=
  [.init]
    ++ ((List.range (m.length / 4)).flatMap fun q => pushw (wordAt m q))
    ++ (if m.length % 4 = 0 then [] else pushn (wordAt m (m.length / 4)) (BitVec.ofNat 3 (m.length % 4)))
    ++ [.final]

/-! ### Runs -/

/-- The events by which a host issues instructions in order (R81). -/
def eventsOf (p : List Instr) : List HostEvent := p.map fun i => .access (accessOf i)

/-- Instructions performed in order, as far as the first stop. -/
def runInstrs : List Instr → State → Host.Outcome State Fault Refusal
  | [], s => .next s
  | i :: p, s =>
    match exec i s with
    | .next t => runInstrs p t
    | .fault f => .fault f
    | .refused r => .refused r

/-- What the host sees of one event. -/
inductive HostReply where
  /-- the access completed with this answer, or the reset was applied -/
  | completed (r : BusResponse)
  /-- a bus-error response; on a read, with the data that comes with it (R151) -/
  | busErr (off : BitVec 6) (rdata : Option Word)
deriving DecidableEq, Repr

/-- The data that comes with a bus error on this event: BUSERR_RDATA on a read (R151). -/
def errorData : HostEvent → Option Word
  | .access a => if a.dir = .read then some Config.busErrRdata else none
  | .reset => none
  | .accessDuringReset _ => none

/-- One event as the host sees it: after a bus error the core is as it was and goes on (R151, R154). An event for which the
spec gives no transition has no reply. -/
def hostPerform (e : HostEvent) (s : State) : Option (HostReply × State) :=
  match step (postNext e s) with
  | .next t => some (.completed t.response, t)
  | .fault (.busErr _ off) => some (.busErr off (errorData e), s)
  | .refused _ => none

/-- A sequence of events as the host sees it, one at a time in the order received (R59, R154). -/
def transcript : List HostEvent → State → Option (List HostReply × State)
  | [], s => some ([], s)
  | e :: es, s =>
    match hostPerform e s with
    | none => none
    | some (r, t) =>
      match transcript es t with
      | none => none
      | some (rs, u) => some (r :: rs, u)

/-! ### Time on the bus (R183) -/

/-- How many compressions a command performs in this state (R104, R183). -/
def compressions (c : Command) (s : State) : Nat :=
  match c with
  | .absorb n => if s.done || !countInRange n then 0 else (s.level.toNat + n.toNat) / 64
  | .final => if s.done then 0 else if s.level.toNat ≤ 55 then 1 else 2
  | .nop => 0
  | .init => 0
  | .clrerr => 0

/-- How long a write of command word `w` holds the bus: the open CMD_LATENCY (R57, R183). No step depends on it. -/
def busHold (w : Word) (s : State) : Nat :=
  match decodeCommand w with
  | .ok c => Config.cmdLatency w (compressions c s)
  | .error _ => Config.cmdLatency w 0

end Sys2Proof.Machine
end

