-- ==== Sys2Proof/Machine/Platform.lean ====
section
/-! DEFINITION. Several cores on one platform: each with its own window, its own state and its own reset; and a transfer as
a byte-addressed bus carries it (spec/20_memory.md R50, R52, spec/60_exceptions.md R163, R164). -/

namespace Sys2Proof.Machine

/-- The cores of a platform; the place in the list is the instance's number. -/
abbrev Platform := List State

/-- The platform after every core's reset: N_INSTANCES cores (R164). -/
def platformReset : Platform := List.replicate Config.nInstances State.reset

/-- The bus address lies in instance `i`'s window (R50). -/
def inWindow (i addr : Nat) : Bool :=
  decide (Config.instanceBase i ≤ addr) && decide (addr < Config.instanceBase i + 64)

/-- The instance among the first `n` whose window holds the address. -/
def ownerOf (n addr : Nat) : Option Nat := (List.range n).find? fun i => inWindow i addr

/-- The offset of an address in instance `i`'s window (R50). -/
def offsetIn (i addr : Nat) : BitVec 6 := BitVec.ofNat 6 (addr - Config.instanceBase i)

/-- An access at a bus address, as the core of instance `i` receives it (R50). -/
def accessAt (i : Nat) (dir : Dir) (addr width : Nat) (v : Word) : BusAccess :=
  { dir := dir, off := offsetIn i addr, width := width, value := v }

/-- One event for instance `i`, as the host sees it; no other instance takes part (R164). -/
def platformEvent (i : Nat) (e : HostEvent) (p : Platform) : Option (HostReply × Platform) :=
  match p[i]? with
  | none => none
  | some s =>
    match hostPerform e s with
    | none => none
    | some (r, t) => some (r, p.set i t)

/-- One access at a bus address. An address outside every window is no core's: no core answers and none changes (R50). -/
def platformAccess (dir : Dir) (addr width : Nat) (v : Word) (p : Platform) : Option (Option HostReply × Platform) :=
  match ownerOf p.length addr with
  | none => some (none, p)
  | some i =>
    match platformEvent i (.access (accessAt i dir addr width v)) p with
    | none => none
    | some (r, q) => some (some r, q)

/-! ### Byte addresses (R52) -/

/-- Bytes on a byte-addressed bus, each with its address. -/
abbrev BusBytes := List (Nat × Byte)

/-- The bus address of offset `off` in instance `i`'s window: `MD5_BASE + off` (R50). -/
def registerAddress (i : Nat) (off : BitVec 6) : Nat := Config.instanceBase i + off.toNat

/-- A 32-bit value at a bus address: lane `k` is the byte at that address plus `k` (R52). -/
def busBytes (addr : Nat) (v : Word) : BusBytes := (List.range 4).map fun k => (addr + k, lane v k)

/-- The byte a transfer carries at an address. -/
def byteAt (bs : BusBytes) (addr : Nat) : Option Byte := (bs.find? fun c => c.1 == addr).map Prod.snd

/-- The 32-bit value whose lanes stand at `addr` to `addr + 3` (R52); none where a byte is missing. -/
def wordFromBus (bs : BusBytes) (addr : Nat) : Option Word :=
  match byteAt bs addr, byteAt bs (addr + 1), byteAt bs (addr + 2), byteAt bs (addr + 3) with
  | some b0, some b1, some b2, some b3 => some (le32 b0 b1 b2 b3)
  | _, _, _, _ => none

/-- The register bytes that come with a reply: those of the word a read returned (R52). -/
def replyBytes (addr : Nat) : Option HostReply → BusBytes
  | some (.completed (.data w)) => busBytes addr w
  | some (.completed .ok) => []
  | some (.completed .idle) => []
  | some (.busErr _ _) => []
  | none => []

/-- A 32-bit read as a byte-addressed bus carries it: the bytes of the value, at their addresses (R52). -/
def platformReadBytes (addr : Nat) (p : Platform) : Option (BusBytes × Platform) :=
  (platformAccess .read addr 32 0 p).map fun x => (replyBytes addr x.1, x.2)

/-- A 32-bit write as a byte-addressed bus carries it: the value is the one whose lanes these bytes are (R52). -/
def platformWriteBytes (addr : Nat) (bs : BusBytes) (p : Platform) : Option (Option HostReply × Platform) :=
  match wordFromBus bs addr with
  | none => none
  | some v => platformAccess .write addr 32 v p

end Sys2Proof.Machine
end

