-- ==== Sys2Proof/Safety.lean ====
section
/-! DEFINITION. The terms claims are stated in: an outcome's next state, the invariants of spec/10_state.md R30, and what it
means that a context holds a message. -/

namespace Sys2Proof.Machine

/-- The next state of an outcome, where it has one. -/
def nextState : Host.Outcome State Fault Refusal → Option State
  | .next t => some t
  | .fault _ => none
  | .refused _ => none

/-- The bus's answer an outcome leaves, where it has a next state. -/
def answerOf (o : Host.Outcome State Fault Refusal) : Option BusResponse :=
  match o with
  | .next t => some t.response
  | .fault _ => none
  | .refused _ => none

/-- The fault of an outcome, where it is one. -/
def faultOf : Host.Outcome State Fault Refusal → Option Fault
  | .next _ => none
  | .fault f => some f
  | .refused _ => none

/-- The refusal of an outcome, where it is one. -/
def refusalOf : Host.Outcome State Fault Refusal → Option Refusal
  | .next _ => none
  | .fault _ => none
  | .refused r => some r

/-- `buf[k] = 0` for every `k >= level` (R30 item 2). -/
abbrev BufferClean (s : State) : Prop := ∀ k : Fin 64, s.level.toNat ≤ k.val → s.buf[k] = 0

/-- If `done = 0` then `level = count mod 64` (R30 item 3). -/
abbrev LevelFollowsCount (s : State) : Prop := s.done = false → s.level.toNat = s.count.toNat % 64

/-- If `done = 1` then `level = 0` (R30 item 4). -/
abbrev EmptyWhenDone (s : State) : Prop := s.done = true → s.level = 0

/-- The invariants of R30 that need no history; item 1 is the type of `level`. -/
abbrev ContextInv (s : State) : Prop := BufferClean s ∧ LevelFollowsCount s ∧ EmptyWhenDone s

/-- The context holds the message `m`: the bytes absorbed since the last INIT or reset. Before FINAL its whole blocks are
folded into `st` and the rest stands in `buf`; after FINAL `st` is its digest (R24, R25, R30). -/
def HoldsMessage (s : State) (m : List Byte) : Prop :=
  s.count = BitVec.ofNat 64 m.length ∧
  (s.done = false →
    s.st = foldBlocks m (m.length / 64) ∧ s.level = BitVec.ofNat 6 m.length ∧ s.buf = blockAt m (m.length / 64)) ∧
  (s.done = true → s.st = md5Words m ∧ s.level = 0 ∧ s.buf = zeroBlock)

/-- The event is a legal write of CMD whose word encodes the command (R90, R99). -/
def EventIssues (e : HostEvent) (c : Command) : Prop :=
  ∃ a w, e = .access a ∧ decodeAccess a = .ok (.wrCmd w) ∧ decodeCommand w = .ok c

/-- The event is a legal write of CMD whose word encodes no command (R99, R152). -/
def EventIsIllegalWord (e : HostEvent) : Prop :=
  ∃ a w, e = .access a ∧ decodeAccess a = .ok (.wrCmd w) ∧ legalCmd w = false

/-- No error is recorded (spec/92_eei_decisions.md D8: claims about digests assume it). -/
abbrev NoErrors (s : State) : Prop := s.errCmd = false ∧ s.errSeq = false

/-- A run is safe when it stops nowhere. -/
def SafeRun (p : List Instr) (s : State) : Prop := ∃ t, runInstrs p s = .next t

end Sys2Proof.Machine
end

