-- ==== Sys2Proof/Certificates/Slice0/Obligations.lean ====
section
/-! DEFINITION. The statements for the provers. A statement writes the next state out as a record update of the state
before, so it says the result and the frame at once. The fields `pending` and `response` are the model's own
(notes/assumptions/1.md, 2.md): what a statement says of them is the model's choice, not a rule of the spec. -/

open Sys2Proof Sys2Proof.Machine

/-! ### Reset -/

/-- Every element's reset value, as R40's table gives it; and, a sentence R40 marks as derived, the reset state is what INIT
leaves, with both flags clear and `data = 0` (`pending` and `response` are the model's own). -/
def Obligations.ResetStateHoldsTheSpecValues : Prop :=
  State.reset.st = ⟨0x67452301, 0xEFCDAB89, 0x98BADCFE, 0x10325476⟩ ∧
  (∀ k : Fin 64, State.reset.buf[k] = 0x00) ∧
  State.reset.level = 0 ∧ State.reset.count = 0 ∧ State.reset.done = false ∧
  State.reset.errCmd = false ∧ State.reset.errSeq = false ∧ State.reset.data = 0x00000000 ∧
  (∀ s : State, ∃ t, exec .init s = .next t ∧
    State.reset =
      { t with errCmd := false, errSeq := false, data := 0, pending := State.reset.pending,
               response := State.reset.response })

/-- The reset event sets every state element to its reset value (R170), whatever the state, and every access still to come
sees the reset state. That the host's later events stay queued and that no answer is outstanding is the model's choice
(notes/assumptions/1.md, 2.md). -/
def Obligations.ResetEventSetsEveryElement : Prop :=
  ∀ s : State, step (postNext .reset s) = .next
    { st := ⟨0x67452301, 0xEFCDAB89, 0x98BADCFE, 0x10325476⟩
      buf := Vector.replicate 64 0x00
      level := 0
      count := 0
      done := false
      errCmd := false
      errSeq := false
      data := 0x00000000
      pending := s.pending
      response := .idle }

/-- R184: the model has no transition for an access while reset is being applied. -/
def Obligations.AccessDuringResetIsRefused : Prop :=
  ∀ (s : State) (a : BusAccess), step (postNext (.accessDuringReset a) s) = .refused .accessDuringReset

/-- R171, which the spec marks as derived: `init ; clrerr ; wr DATA, 0` reaches the reset state from any state, and the reset
state is what `init` produces with both flags 0 and `data = 0` (`pending` and `response` are the model's own). -/
def Obligations.InitClrerrWrDataReachReset : Prop :=
  (∀ s : State, runInstrs [.init, .clrerr, .wrData 0] s =
    .next { State.reset with pending := s.pending, response := .ok }) ∧
  (∀ s : State, ∃ t, exec .init s = .next t ∧
    State.reset =
      { t with errCmd := false, errSeq := false, data := 0, pending := State.reset.pending,
               response := State.reset.response })

/-- INIT makes what follows independent of history, and so does reset (R173): two cores that agree on the error flags, DATA
and what is still pending agree wholly after INIT; after reset they agree whatever they held. -/
def Obligations.InitForgetsHistory : Prop :=
  (∀ s t : State, s.errCmd = t.errCmd → s.errSeq = t.errSeq → s.data = t.data → s.pending = t.pending →
    exec .init s = exec .init t) ∧
  (∀ s t : State, s.pending = t.pending → step (postNext .reset s) = step (postNext .reset t))

/-! ### Register reads -/

/-- R91: `rd ID` returns the constant in every state and changes nothing; offset 0x00 is not writable. -/
def Obligations.RdIdReturnsTheConstant : Prop :=
  (∀ s : State, exec .rdId s = .next { s with response := .data 0x4D443501 }) ∧
  (∀ v, decodeAccess { dir := .read, off := 0x00, width := 32, value := v } = .ok .rdId) ∧
  (∀ s v, step (postNext (.access (regWrite 0x00 v)) s) = .fault (.busErr .readOnly 0x00))

/-- R92, R34: `rd STATUS` returns DONE, LEVEL, ERR_CMD and ERR_SEQ in their fields and 0 in every reserved bit, clears
nothing, and reads LEVEL as 0 while DONE is 1 (in the states that meet R30); STATUS is not writable. -/
def Obligations.RdStatusReturnsTheFields : Prop :=
  (∀ s : State, ∃ w : Word,
    exec .rdStatus s = .next { s with response := .data w } ∧
    w = (BitVec.ofBool s.done).setWidth 32 ||| (s.level.setWidth 32 <<< 8)
      ||| ((BitVec.ofBool s.errCmd).setWidth 32 <<< 16) ||| ((BitVec.ofBool s.errSeq).setWidth 32 <<< 17) ∧
    w.extractLsb' 0 1 = BitVec.ofBool s.done ∧
    w.extractLsb' 1 7 = 0 ∧
    w.extractLsb' 8 6 = s.level ∧
    w.extractLsb' 14 2 = 0 ∧
    w.extractLsb' 16 1 = BitVec.ofBool s.errCmd ∧
    w.extractLsb' 17 1 = BitVec.ofBool s.errSeq ∧
    w.extractLsb' 18 14 = 0 ∧
    (ContextInv s → s.done = true → w.extractLsb' 8 6 = 0)) ∧
  (∀ v, decodeAccess { dir := .read, off := 0x04, width := 32, value := v } = .ok .rdStatus) ∧
  (∀ s v, step (postNext (.access (regWrite 0x04 v)) s) = .fault (.busErr .readOnly 0x04)) ∧
  exec .rdStatus State.reset = .next { State.reset with response := .data 0x00000000 } ∧
  (∀ s : State, NoErrors s → ∃ t,
    runInstrs ([.init] ++ pushn 0x74736574 4 ++ [.rdStatus]) s = .next t ∧ t.response = .data 0x00000400)

/-- R93: `rd CMD` returns 0 in every state, whatever word was written last, and issues nothing. -/
def Obligations.RdCmdReturnsZero : Prop :=
  (∀ s : State, exec .rdCmd s = .next { s with response := .data 0x00000000 }) ∧
  (∀ v, decodeAccess { dir := .read, off := 0x08, width := 32, value := v } = .ok .rdCmd)

/-- R94: `rd DATA` returns `data`; ABSORB and INIT do not change it, and reset sets it to 0. -/
def Obligations.RdDataReturnsTheStagedWord : Prop :=
  (∀ s : State, exec .rdData s = .next { s with response := .data s.data }) ∧
  (∀ v, decodeAccess { dir := .read, off := 0x0C, width := 32, value := v } = .ok .rdData) ∧
  (∀ (s : State) (n : BitVec 3), ∃ t, exec (.absorb n) s = .next t ∧ t.data = s.data) ∧
  (∀ s : State, ∃ t, exec .init s = .next t ∧ t.data = s.data) ∧
  (∀ s : State, ∃ t, step (postNext .reset s) = .next t ∧ t.data = 0) ∧
  (∀ s : State, s.done = false →
    ∃ t, runInstrs [.wrData 0x11223344, .absorb 2, .rdData] s = .next t ∧ t.response = .data 0x11223344)

/-- R95, R96: the two COUNT reads return the halves of `count`, which together are `count`; FINAL does not change it; after
`init` the high half is 0, and after 65 bytes more the low half is 0x41. -/
def Obligations.RdCountReturnsTheHalves : Prop :=
  (∀ s : State, ∃ lo hi : Word,
    exec .rdCountLo s = .next { s with response := .data lo } ∧
    exec .rdCountHi s = .next { s with response := .data hi } ∧
    hi ++ lo = s.count ∧
    (hi ≠ 0 → 2 ^ 32 ≤ s.count.toNat)) ∧
  (∀ v, decodeAccess { dir := .read, off := 0x10, width := 32, value := v } = .ok .rdCountLo) ∧
  (∀ v, decodeAccess { dir := .read, off := 0x14, width := 32, value := v } = .ok .rdCountHi) ∧
  (∀ s : State, ∃ t, exec .final s = .next t ∧ t.count = s.count) ∧
  (∀ s : State, ∃ t, runInstrs [.init, .rdCountHi] s = .next t ∧ t.response = .data 0x00000000) ∧
  (∀ s : State, ∃ t, runInstrs ([.init] ++ List.replicate 16 (.absorb 4) ++ [.absorb 1, .rdCountLo]) s = .next t ∧
    t.response = .data 0x00000041)

/-- R97: `rd DIGESTn` returns `st[n]` in every state, before and after FINAL (R38), and 0xD98C1DD4 as DIGEST0 of the empty
message; a write is a bus error. -/
def Obligations.RdDigestReturnsTheChainingWord : Prop :=
  (∀ s : State,
    exec (.rdDigest 0) s = .next { s with response := .data s.st.a } ∧
    exec (.rdDigest 1) s = .next { s with response := .data s.st.b } ∧
    exec (.rdDigest 2) s = .next { s with response := .data s.st.c } ∧
    exec (.rdDigest 3) s = .next { s with response := .data s.st.d }) ∧
  (∀ v,
    decodeAccess { dir := .read, off := 0x20, width := 32, value := v } = .ok (.rdDigest 0) ∧
    decodeAccess { dir := .read, off := 0x24, width := 32, value := v } = .ok (.rdDigest 1) ∧
    decodeAccess { dir := .read, off := 0x28, width := 32, value := v } = .ok (.rdDigest 2) ∧
    decodeAccess { dir := .read, off := 0x2C, width := 32, value := v } = .ok (.rdDigest 3)) ∧
  (∀ s v, ∀ off ∈ [(0x20 : BitVec 6), 0x24, 0x28, 0x2C],
    step (postNext (.access (regWrite off v)) s) = .fault (.busErr .readOnly off)) ∧
  (∀ s : State, ∃ t, runInstrs (hashProgram [] ++ [.rdDigest 0]) s = .next t ∧ t.response = .data 0xD98C1DD4)

/-- R55: `digest[4n+k] = st[n][8k+7:8k]`, 16 bytes; and, a sentence R55 marks as derived, they are the lanes of DIGEST0 to
DIGEST3 in address order. -/
def Obligations.DigestBytesAreLittleEndianPerWord : Prop :=
  (∀ q : Quad, (digestBytes q).length = 16) ∧
  (∀ (s : State) (n : BitVec 2) (k : Fin 4), ∃ w : Word,
    exec (.rdDigest n) s = .next { s with response := .data w } ∧
    decodeAccess (regRead (0x20 + (n.setWidth 6 <<< 2))) = .ok (.rdDigest n) ∧
    (digestBytes s.st)[4 * n.toNat + k.val]? = some (BitVec.ofNat 8 (w.toNat / 2 ^ (8 * k.val))))

/-! ### Register writes -/

/-- R98: `wr DATA, v` stores the word and nothing else, in every state; it absorbs nothing. 0x00636261 stages 'a', 'b', 'c'
and 0 in lanes 0 to 3. -/
def Obligations.WrDataStagesTheWord : Prop :=
  (∀ (s : State) (v : Word), exec (.wrData v) s = .next { s with data := v, response := .ok }) ∧
  (∀ v, decodeAccess { dir := .write, off := 0x0C, width := 32, value := v } = .ok (.wrData v)) ∧
  (∀ s : State, ∃ t, exec (.wrData 0x00636261) s = .next t ∧ lanes t.data 4 = [0x61, 0x62, 0x63, 0x00])

/-- R99: a legal command word performs exactly its command; an illegal one records ERR_CMD and does nothing else. -/
def Obligations.WrCmdPerformsTheCommandOfItsWord : Prop :=
  (∀ v, decodeAccess { dir := .write, off := 0x08, width := 32, value := v } = .ok (.wrCmd v)) ∧
  (∀ s : State,
    exec (.wrCmd 0x00000000) s = exec .nop s ∧
    exec (.wrCmd 0x00000001) s = exec .init s ∧
    (∀ n : BitVec 3, n.toNat ≤ 4 → exec (.wrCmd (0x00000002 + n.setWidth 32 * 16)) s = exec (.absorb n) s) ∧
    exec (.wrCmd 0x00000003) s = exec .final s ∧
    exec (.wrCmd 0x00000004) s = exec .clrerr s) ∧
  (∀ (s : State) (w : Word), legalCmd w = false →
    exec (.wrCmd w) s = .next { s with errCmd := true, response := .ok }) ∧
  (∀ (s : State) (w : Word), ∃ t, exec (.wrCmd w) s = .next t)

/-! ### The commands -/

/-- R100: `nop` changes nothing in any state, and records no error. -/
def Obligations.NopChangesNothing : Prop :=
  (∀ s : State, exec .nop s = .next { s with response := .ok }) ∧
  (∀ s : State, step (postNext (.access (regWrite 0x08 0x00000000)) s) = .next { s with response := .ok })

/-- R101: `init` loads IV, empties the buffer, zeroes level and count and clears DONE, in any state; the error flags and
`data` are kept; two INITs equal one. -/
def Obligations.InitLoadsTheInitialContext : Prop :=
  (∀ s : State, exec .init s = .next
    { s with st := ⟨0x67452301, 0xEFCDAB89, 0x98BADCFE, 0x10325476⟩, buf := Vector.replicate 64 0x00, level := 0,
             count := 0, done := false, response := .ok }) ∧
  (∀ s : State, step (postNext (.access (regWrite 0x08 0x00000001)) s) = exec .init s) ∧
  (∀ s : State, runInstrs [.init, .init] s = runInstrs [.init] s)

/-- R106: `clrerr` clears both error flags and touches nothing else, in any state; the malformed word 0x14 clears nothing. -/
def Obligations.ClrerrClearsBothFlags : Prop :=
  (∀ s : State, exec .clrerr s = .next { s with errCmd := false, errSeq := false, response := .ok }) ∧
  (∀ s : State, step (postNext (.access (regWrite 0x08 0x00000004)) s) = exec .clrerr s) ∧
  (∀ s : State, exec (.wrCmd 0x00000014) s = .next { s with errCmd := true, response := .ok })

/-- `absorb N` that leaves the block unfilled: the low N lanes of `data` stand behind the bytes already held, level and
count rise by N, and nothing else changes (`N = 0` changes nothing). -/
def Obligations.AbsorbInsideABlock : Prop :=
  ∀ (s : State) (n : BitVec 3), s.done = false → n.toNat ≤ 4 → s.level.toNat + n.toNat < 64 →
    ∃ b : Block,
      (∀ k : Fin 64, b[k] =
        if s.level.toNat ≤ k.val ∧ k.val < s.level.toNat + n.toNat then
          s.data.extractLsb' (8 * (k.val - s.level.toNat)) 8
        else s.buf[k]) ∧
      exec (.absorb n) s = .next
        { s with buf := b, level := BitVec.ofNat 6 (s.level.toNat + n.toNat),
                 count := s.count + BitVec.ofNat 64 n.toNat, response := .ok }

/-- `absorb N` that fills the block: the first lanes complete it, it is compressed into `st`, and the other lanes open the
next block, the rest of which is zero. -/
def Obligations.AbsorbAcrossABlock : Prop :=
  ∀ (s : State) (n : BitVec 3), s.done = false → n.toNat ≤ 4 → 64 ≤ s.level.toNat + n.toNat →
    ∃ full rest : Block,
      (∀ k : Fin 64, full[k] =
        if s.level.toNat ≤ k.val then s.data.extractLsb' (8 * (k.val - s.level.toNat)) 8 else s.buf[k]) ∧
      (∀ k : Fin 64, rest[k] =
        if k.val < s.level.toNat + n.toNat - 64 then s.data.extractLsb' (8 * (64 - s.level.toNat + k.val)) 8
        else 0x00) ∧
      exec (.absorb n) s = .next
        { s with st := compress s.st full, buf := rest, level := BitVec.ofNat 6 (s.level.toNat + n.toNat - 64),
                 count := s.count + BitVec.ofNat 64 n.toNat, response := .ok }

/-- `final` with `level <= 55`: one block, the bytes held, 0x80, zeros, and the length in bits, is compressed. -/
def Obligations.FinalPadsIntoOneBlock : Prop :=
  ∀ s : State, s.done = false → s.level.toNat ≤ 55 →
    ∃ b : Block,
      (∀ k : Fin 64, b[k] =
        if k.val < s.level.toNat then s.buf[k]
        else if k.val = s.level.toNat then 0x80
        else if k.val < 56 then 0x00
        else BitVec.ofNat 8 (8 * s.count.toNat / 2 ^ (8 * (k.val - 56)))) ∧
      exec .final s = .next
        { s with st := compress s.st b, buf := Vector.replicate 64 0x00, level := 0, done := true, response := .ok }

/-- `final` with `level >= 56`: the bytes held, 0x80 and zeros fill one block; zeros and the length in bits a second. -/
def Obligations.FinalPadsIntoTwoBlocks : Prop :=
  ∀ s : State, s.done = false → 56 ≤ s.level.toNat →
    ∃ b1 b2 : Block,
      (∀ k : Fin 64, b1[k] =
        if k.val < s.level.toNat then s.buf[k] else if k.val = s.level.toNat then 0x80 else 0x00) ∧
      (∀ k : Fin 64, b2[k] =
        if k.val < 56 then 0x00 else BitVec.ofNat 8 (8 * s.count.toNat / 2 ^ (8 * (k.val - 56)))) ∧
      exec .final s = .next
        { s with st := compress (compress s.st b1) b2, buf := Vector.replicate 64 0x00, level := 0, done := true,
                 response := .ok }

/-- R105 (its last sentence is one the spec marks as derived): Pad is 0x80, then `(55 - level) mod 64` zeros, then the length little-endian; its length completes the block, or
this block and a second; and a padded message is a whole number of blocks. -/
def Obligations.PadCompletesTheBlock : Prop :=
  (∀ (level : BitVec 6) (bits : BitVec 64), ∃ z : Nat,
    z ≤ 63 ∧ (level.toNat + 1 + z) % 64 = 56 ∧
    pad level bits = [0x80] ++ List.replicate z 0x00
      ++ (List.range 8).map (fun k => BitVec.ofNat 8 (bits.toNat / 2 ^ (8 * k))) ∧
    (pad level bits).length = if level.toNat ≤ 55 then 64 - level.toNat else 128 - level.toNat) ∧
  (∀ m : List Byte, (paddedMessage m).length % 64 = 0) ∧
  (∀ s : State, s.done = false →
    exec .final s = .next
      { pushBytes (pad s.level (BitVec.ofNat 64 (8 * s.count.toNat))) s with done := true, response := .ok })

/-! ### Errors -/

/-- R152: a legal `wr CMD` whose word is illegal sets ERR_CMD, changes nothing else, and its access completes normally. -/
def Obligations.IllegalWordRecordsErrCmd : Prop :=
  ∀ (s : State) (w : Word), legalCmd w = false →
    step (postNext (.access (regWrite 0x08 w)) s) = .next { s with errCmd := true, response := .ok }

/-- R153: ABSORB (any N from 0 to 4) and FINAL with `done = 1` set ERR_SEQ and change nothing else; NOP, INIT and CLRERR
never raise it; INIT makes the context usable again. -/
def Obligations.UpdateAfterFinalRecordsErrSeq : Prop :=
  (∀ (s : State) (n : BitVec 3), s.done = true → n.toNat ≤ 4 →
    exec (.absorb n) s = .next { s with errSeq := true, response := .ok }) ∧
  (∀ s : State, s.done = true → exec .final s = .next { s with errSeq := true, response := .ok }) ∧
  (∀ s : State, ∀ i ∈ [Instr.nop, Instr.init, Instr.clrerr],
    ∃ t, exec i s = .next t ∧ (t.errSeq = true → s.errSeq = true)) ∧
  (∀ s : State, ∃ t, exec .init s = .next t ∧ t.done = false)

/-- An `absorb` whose N is 5 to 7 has no encoding that decodes to it; carried out as R99 says, it records ERR_CMD, whatever
`done` is, and absorbs nothing. -/
def Obligations.AbsorbOutOfRangeRecordsErrCmd : Prop :=
  ∀ (s : State) (n : BitVec 3), 5 ≤ n.toNat →
    exec (.absorb n) s = .next { s with errCmd := true, response := .ok } ∧
    exec (.wrCmd (0x00000002 + n.setWidth 32 * 16)) s = .next { s with errCmd := true, response := .ok }

/-- R151: an access that is not legal is a bus error: the step faults, the host sees an error answer, on a read with
BUSERR_RDATA, and the core's state, flags included, is what it was. -/
def Obligations.IllegalAccessIsABusError : Prop :=
  ∀ (s : State) (a : BusAccess), legal a.dir a.off a.width = false →
    (∃ reason, step (postNext (.access a) s) = .fault (.busErr reason a.off)) ∧
    hostPerform (.access a) s =
      some (.busErr a.off (if a.dir = .read then some Config.busErrRdata else none), s)

/-- R155: one error at most, BUS_ERR before ERR_CMD before ERR_SEQ. -/
def Obligations.ErrorsHaveOnePriority : Prop :=
  (∀ (s : State) (a : BusAccess), legal a.dir a.off a.width = false →
    ∃ reason, step (postNext (.access a) s) = .fault (.busErr reason a.off)) ∧
  (∀ (s : State) (w : Word), legalCmd w = false →
    step (postNext (.access (regWrite 0x08 w)) s) = .next { s with errCmd := true, response := .ok }) ∧
  (∀ (s : State) (w : Word), legalCmd w = true →
    ∃ t, step (postNext (.access (regWrite 0x08 w)) s) = .next t ∧
      (t.errCmd = true → s.errCmd = true) ∧
      (t.errSeq = true → s.errSeq = true ∨ (s.done = true ∧ (w.extractLsb' 0 4 = 2 ∨ w = 3)))) ∧
  (∀ s : State, s.done = true →
    step (postNext (.access (regWrite 0x08 0x00000052)) s) = .next { s with errCmd := true, response := .ok })

/-- R156: the flags stay until CLRERR or reset, and neither flag keeps any event from having its effect (a `rd STATUS`
returns the flags, so its answer is left out). -/
def Obligations.ErrorFlagsAreStickyAndBlockNothing : Prop :=
  (∀ (e : HostEvent) (s t : State), step (postNext e s) = .next t →
    (s.errCmd = true → t.errCmd = true ∨ EventIssues e .clrerr ∨ e = .reset) ∧
    (s.errSeq = true → t.errSeq = true ∨ EventIssues e .clrerr ∨ e = .reset)) ∧
  (∀ (e : HostEvent) (s t : State) (b1 b2 : Bool), step (postNext e s) = .next t →
    ∃ c1 c2 r,
      step (postNext e { s with errCmd := b1, errSeq := b2 }) =
        .next { t with errCmd := c1, errSeq := c2, response := r } ∧
      (r = t.response ∨ ∃ a, e = .access a ∧ decodeAccess a = .ok .rdStatus))

/-- R154 for the host's view: after an access in error every later event is performed as if that access had not been. -/
def Obligations.LaterAccessesGoOnAfterABusError : Prop :=
  ∀ (a : BusAccess) (es : List HostEvent) (s : State), legal a.dir a.off a.width = false →
    transcript (.access a :: es) s =
      (transcript es s).map fun p =>
        (.busErr a.off (if a.dir = .read then some Config.busErrRdata else none) :: p.1, p.2)

/-- R159: apart from the error cases no command can fail. Every well-formed instruction has a next state from every state; a
legal one in its legal state (`absorb` and `final`: `done = 0`; the others: any) records no error. -/
def Obligations.EveryInstructionCompletes : Prop :=
  ∀ (i : Instr) (s : State), WellFormed i →
    ∃ t, exec i s = .next t ∧
      ((∀ w, i = .wrCmd w → legalCmd w = true) →
        (s.done = false ∨ ((∀ n, i ≠ .absorb n) ∧ i ≠ .final ∧
          ∀ w, i = .wrCmd w → w.extractLsb' 0 4 ≠ 2 ∧ w.extractLsb' 0 4 ≠ 3)) →
        (t.errCmd = true → s.errCmd = true) ∧ (t.errSeq = true → s.errSeq = true))

/-! ### What may write what -/

/-- ERR_CMD is set only by an illegal command word; ERR_SEQ only by ABSORB or FINAL with `done = 1`. -/
def Obligations.ErrorFlagsAreSetOnlyByErrors : Prop :=
  ∀ (e : HostEvent) (s t : State), step (postNext e s) = .next t →
    (t.errCmd = true → s.errCmd = true ∨ EventIsIllegalWord e) ∧
    (t.errSeq = true → s.errSeq = true ∨
      (s.done = true ∧ ((∃ n, EventIssues e (.absorb n)) ∨ EventIssues e .final)))

/-- DONE is set only by FINAL and cleared only by INIT and reset. -/
def Obligations.DoneIsSetByFinalAndClearedByInit : Prop :=
  ∀ (e : HostEvent) (s t : State), step (postNext e s) = .next t →
    (t.done = true → s.done = true ∨ EventIssues e .final) ∧
    (t.done = false → s.done = false ∨ EventIssues e .init ∨ e = .reset)

/-- Only ABSORB, FINAL, INIT and reset write the chaining registers, the buffer and the level; only ABSORB, INIT and reset
the count; no event but `wr DATA` and reset writes DATA. -/
def Obligations.ContextIsWrittenOnlyByItsCommands : Prop :=
  ∀ (e : HostEvent) (s t : State), step (postNext e s) = .next t →
    (((∃ n, EventIssues e (.absorb n)) ∨ EventIssues e .final ∨ EventIssues e .init ∨ e = .reset) ∨
      (t.st = s.st ∧ t.buf = s.buf ∧ t.level = s.level)) ∧
    (((∃ n, EventIssues e (.absorb n)) ∨ EventIssues e .init ∨ e = .reset) ∨ t.count = s.count) ∧
    ((∃ a v, e = .access a ∧ decodeAccess a = .ok (.wrData v) ∧ t.data = v) ∨ e = .reset ∨ t.data = s.data)

/-- Reads have no side effect (R58): whatever a legal read returns, every element of the state is what it was. -/
def Obligations.ReadsHaveNoSideEffect : Prop :=
  ∀ (s : State) (a : BusAccess), a.dir = .read → legal a.dir a.off a.width = true →
    ∃ w, step (postNext (.access a) s) = .next { s with response := .data w }

/-! ### Independence -/

/-- R177, R56: `absorb N` depends on the low N lanes of `data` only. -/
def Obligations.AbsorbIgnoresTheHighLanes : Prop :=
  ∀ (s : State) (n : BitVec 3) (v : Word), (∀ k, k < n.toNat → v.extractLsb' (8 * k) 8 = s.data.extractLsb' (8 * k) 8) →
    ∃ t, exec (.absorb n) s = .next t ∧ exec (.absorb n) { s with data := v } = .next { t with data := v }

/-- The buffer's contents cannot be seen or changed through the bus but by ABSORB and FINAL (R23): two cores that differ in
them alone answer every other event alike and still differ in them alone. -/
def Obligations.BufferContentsAreHidden : Prop :=
  ∀ (e : HostEvent) (s t : State) (b : Block), (∀ n, ¬ EventIssues e (.absorb n)) → ¬ EventIssues e .final →
    step (postNext e s) = .next t →
    ∃ b', step (postNext e { s with buf := b }) = .next { t with buf := b' } ∧ (b' = b ∨ b' = t.buf)

/-- Instances share no state (R164, R50): the windows of two instances have no address in common, an access changes no
instance but the one whose window holds its address, and an address outside every window changes none. -/
def Obligations.InstancesAreIndependent : Prop :=
  (∀ i j addr, inWindow i addr = true → inWindow j addr = true → i = j) ∧
  (∀ i, Config.instanceBase i % 64 = 0) ∧
  (∀ dir addr width v (p q : Platform) r, platformAccess dir addr width v p = some (r, q) →
    q.length = p.length ∧ ∀ j, inWindow j addr = false → q[j]? = p[j]?) ∧
  (∀ (i : Nat) (e : HostEvent) (p q : Platform) r, platformEvent i e p = some (r, q) →
    ∀ j, j ≠ i → q[j]? = p[j]?)

/-- Byte lanes on a byte-addressed bus (R52): lane `k` of a value at offset `off` of instance `i` is the byte at
`MD5_BASE + off + k`, and a value is its four bytes, so a host of either byte order that moves whole values moves the same
one. A legal read carries the lanes of the word it returns at those addresses; the bytes at `MD5_BASE + 0x20` to `+ 0x2F` are
the digest's in address order (R55); a write's bytes are the lanes of the value it carries. Which instance stands where, and
that a transfer short of a byte is no 32-bit write, is the model's choice (notes/assumptions/9.md, 17.md). -/
def Obligations.BusLanesStandAtRisingAddresses : Prop :=
  (∀ (i : Nat) (off : BitVec 6) (v : Word),
    (∀ k : Fin 4, byteAt (busBytes (registerAddress i off) v) (Config.instanceBase i + off.toNat + k.val) =
      some (BitVec.ofNat 8 (v.toNat / 2 ^ (8 * k.val)))) ∧
    wordFromBus (busBytes (registerAddress i off) v) (registerAddress i off) = some v) ∧
  (∀ (p : Platform) (i : Nat) (s : State) (off : BitVec 6), p[i]? = some s → legal .read off 32 = true →
    ∃ w, step (postNext (.access (regRead off)) s) = .next { s with response := .data w } ∧
      platformReadBytes (Config.instanceBase i + off.toNat) p =
        some (busBytes (Config.instanceBase i + off.toNat) w, p.set i { s with response := .data w })) ∧
  (∀ (p : Platform) (i : Nat) (s : State) (n : BitVec 2), p[i]? = some s →
    ∃ bs q, platformReadBytes (Config.instanceBase i + 0x20 + 4 * n.toNat) p = some (bs, q) ∧
      ∀ k : Fin 4, byteAt bs (Config.instanceBase i + 0x20 + 4 * n.toNat + k.val) =
        (digestBytes s.st)[4 * n.toNat + k.val]?) ∧
  (∀ (p : Platform) (i : Nat) (s : State) (v : Word) (bs : BusBytes), p[i]? = some s →
    (∀ k : Fin 4, byteAt bs (Config.instanceBase i + 0x0C + k.val) = some (v.extractLsb' (8 * k.val) 8)) →
    platformWriteBytes (Config.instanceBase i + 0x0C) bs p =
      some (some (.completed .ok), p.set i { s with data := v, response := .ok }))

/-! ### Encoding -/

/-- Decoding what the encoder writes gives the instruction back, for every well-formed instruction and operand. -/
def Obligations.DecodeOfEncodeIsTheInstruction : Prop :=
  ∀ i : Instr, WellFormed i → decode (encode i) = .ok i

/-- Each legal word and each legal descriptor has one meaning: encoding what it decodes to gives it back (a read's value is
written 0). -/
def Obligations.EncodeOfDecodeIsTheForm : Prop :=
  (∀ (w : Word) (c : Command), decodeCommand w = .ok c → c.wf = true ∧ encodeCommand c = w) ∧
  (∀ (d : BitVec 7) (v : Word) (i : Instr), decodeDescriptor d v = .ok i →
    WellFormed i ∧ encode i = .formB d (if d.getLsbD 6 then v else 0))

/-- R75, R73: the legal command words are exactly nine, and they are the ones that decode. -/
def Obligations.NineCommandWordsAreLegal : Prop :=
  ∀ w : Word,
    (legalCmd w = true ↔
      w ∈ [(0x00000000 : Word), 0x00000001, 0x00000002, 0x00000012, 0x00000022, 0x00000032, 0x00000042, 0x00000003,
        0x00000004]) ∧
    (legalCmd w = true ↔
      (w.extractLsb' 7 25 = 0 ∧
        ((w.extractLsb' 0 4 ∈ [(0x0 : BitVec 4), 0x1, 0x3, 0x4] ∧ w.extractLsb' 4 3 = 0) ∨
          (w.extractLsb' 0 4 = 0x2 ∧ (w.extractLsb' 4 3).toNat ≤ 4)))) ∧
    (legalCmd w = true ↔ ∃ c, decodeCommand w = .ok c)

/-- R51, R71: the legal accesses are exactly the 32-bit ones of the twelve descriptors, and they are the ones that
decode. -/
def Obligations.TwelveDescriptorsAreLegal : Prop :=
  ∀ (dir : Dir) (off : BitVec 6) (width : Nat) (v : Word),
    (legal dir off width = true ↔
      width = 32 ∧
        descriptorOf dir off ∈ [(0x00 : BitVec 7), 0x04, 0x08, 0x0C, 0x10, 0x14, 0x20, 0x24, 0x28, 0x2C, 0x48, 0x4C]) ∧
    (legal dir off width = true ↔ ∃ i, decodeAccess { dir := dir, off := off, width := width, value := v } = .ok i)

/-- The descriptors and words of R81's lines decode to what they stand for. That 8 bits are read as a descriptor with the
write value 0 (hence `wrData 0`, `wrCmd 0`), and 32 bits as a command word, is the model's convention for the opcode table's
numbering (notes/assumptions/8.md), not a rule of the spec. -/
def Obligations.ListedEncodingsDecode : Prop :=
  [0x00, 0x04, 0x08, 0x0C, 0x10, 0x14, 0x20, 0x24, 0x28, 0x2C, 0x4C, 0x48].map (decodeTableWord 8) =
    [some .rdId, some .rdStatus, some .rdCmd, some .rdData, some .rdCountLo, some .rdCountHi, some (.rdDigest 0),
      some (.rdDigest 1), some (.rdDigest 2), some (.rdDigest 3), some (.wrData 0), some (.wrCmd 0)] ∧
  [0x00, 0x01, 0x02, 0x12, 0x22, 0x32, 0x42, 0x03, 0x04].map (decodeTableWord 32) =
    [some .nop, some .init, some (.absorb 0), some (.absorb 1), some (.absorb 2), some (.absorb 3), some (.absorb 4),
      some .final, some .clrerr]

/-! ### The step -/

/-- A step performs the oldest pending event: a legal access runs the instruction it decodes to, in the state that no longer
lists it, and an instruction's own access runs that instruction; with nothing pending the core stays as it is (R14, R90). -/
def Obligations.StepRunsTheDecodedInstruction : Prop :=
  (∀ (s : State) (a : BusAccess) (rest : List HostEvent) (i : Instr),
    s.pending = .access a :: rest → decodeAccess a = .ok i → step s = exec i { s with pending := rest }) ∧
  (∀ (s : State) (i : Instr), WellFormed i → step (postNext (.access (accessOf i)) s) = exec i s) ∧
  (∀ s : State, s.pending = [] → step s = .next s)

/-- A step takes exactly the oldest event off the queue and adds none (R59). -/
def Obligations.StepConsumesOneEvent : Prop :=
  ∀ (s t : State) (e : HostEvent) (rest : List HostEvent), s.pending = e :: rest → step s = .next t → t.pending = rest

/-- Issuing a program's accesses and stepping as often performs the program: the accesses take effect one at a time, in
order (R57, R59). -/
def Obligations.IssuedProgramRunsInOrder : Prop :=
  ∀ (p : List Instr) (s : State), (∀ i ∈ p, WellFormed i) →
    Host.Core.run Sys2Proof.core p.length { s with pending := eventsOf p ++ s.pending } = runInstrs p s

/-! ### Invariants -/

/-- The invariants of R30 hold after reset. -/
def Obligations.ResetMeetsTheContextInvariant : Prop := ContextInv State.reset ∧ HoldsMessage State.reset []

/-- Every step keeps the invariants of R30, items 1 to 3 and the level part of item 4, from every state that meets them. -/
def Obligations.StepKeepsTheContextInvariant : Prop :=
  ∀ s t : State, ContextInv s → step s = .next t → ContextInv t

/-- R30 item 4, which the spec marks as derived: if the context holds the message `m`, then after any step it holds a message, and which one: `m` with the
absorbed lanes appended, or the empty message, or `m`. So while `done = 1` the chaining registers are the digest of the
bytes absorbed since the last INIT or reset. -/
def Obligations.StepKeepsTheHeldMessage : Prop :=
  ∀ (s t : State) (e : HostEvent) (m : List Byte), HoldsMessage s m → step (postNext e s) = .next t →
    (s.done = false → ∀ n, EventIssues e (.absorb n) → HoldsMessage t (m ++ lanes s.data n.toNat)) ∧
    ((EventIssues e .init ∨ e = .reset) → HoldsMessage t []) ∧
    ((s.done = true ∨ ∀ n, ¬ EventIssues e (.absorb n)) → ¬ EventIssues e .init → e ≠ .reset → HoldsMessage t m) ∧
    (EventIssues e .final → t.done = true)

/-! ### The digest -/

/-- R108, which the spec marks as derived: any split of a message into pieces of 0 to 4 bytes, absorbed in order after `init`, then `final`, leaves MD5 of
the whole message, from any state whatever; and `init ; final` leaves MD5 of the empty string. -/
def Obligations.StreamingIsTransparent : Prop :=
  (∀ (pieces : List (Word × BitVec 3)) (s : State), (∀ p ∈ pieces, p.2.toNat ≤ 4) →
    ∃ t, runInstrs ([.init] ++ pieces.flatMap (fun p => pushn p.1 p.2) ++ [.final]) s = .next t ∧
      t.done = true ∧
      t.st = md5Words (pieces.flatMap fun p => lanes p.1 p.2.toNat) ∧
      t.count = BitVec.ofNat 64 (pieces.flatMap fun p => lanes p.1 p.2.toNat).length) ∧
  (∀ s : State, ∃ t, runInstrs [.init, .final] s = .next t ∧ t.done = true ∧
    digestBytes t.st =
      [0xD4, 0x1D, 0x8C, 0xD9, 0x8F, 0x00, 0xB2, 0x04, 0xE9, 0x80, 0x09, 0x98, 0xEC, 0xF8, 0x42, 0x7E])

/-- The pseudo-instruction `hash` of R80 leaves MD5 of its string, every string, from any state; read back through
DIGEST0 to DIGEST3. -/
def Obligations.HashProgramComputesMd5 : Prop :=
  ∀ (m : List Byte) (s : State), ∃ t, runInstrs (hashProgram m) s = .next t ∧
    t.done = true ∧ t.level = 0 ∧ t.count = BitVec.ofNat 64 m.length ∧
    t.errCmd = s.errCmd ∧ t.errSeq = s.errSeq ∧ digestBytes t.st = md5 m

/-! ### The compression -/

/-- The one-bit truth table of F, G, H and I, rows 000 to 111, which R119 marks as derived from R120 to R123. -/
def Obligations.RoundFunctionsFollowTheTruthTable : Prop :=
  ∀ (x y z : Word) (j : Nat), j < 32 →
    let row := 4 * (x.getLsbD j).toNat + 2 * (y.getLsbD j).toNat + (z.getLsbD j).toNat
    (roundF x y z).getLsbD j = [false, true, false, true, false, false, true, true].getD row false ∧
    (roundG x y z).getLsbD j = [false, false, true, false, false, true, true, true].getD row false ∧
    (roundH x y z).getLsbD j = [false, true, true, false, true, false, false, true].getD row false ∧
    (roundI x y z).getLsbD j = [true, false, false, true, true, true, false, false].getD row false

/-- R124: bit `j` of `rotl32(x, s)` is bit `(j - s) mod 32` of `x`; the amounts 0 and 32 give `x`. -/
def Obligations.RotationMovesBitsLeft : Prop :=
  (∀ (x : Word) (s j : Nat), 1 ≤ s → s ≤ 31 → j < 32 →
    (rotl32 x s).getLsbD j = x.getLsbD ((j + 32 - s) % 32)) ∧
  (∀ x : Word, rotl32 x 0 = x ∧ rotl32 x 32 = x)

/-- R53: `X[j]` takes four consecutive bytes of the block, the first in its low byte. -/
def Obligations.MessageWordsAreLittleEndian : Prop :=
  ∀ (b : Block) (j : Fin 16),
    (messageWord b j).toNat =
      (b[4 * j.val]).toNat + 2 ^ 8 * (b[4 * j.val + 1]).toNat + 2 ^ 16 * (b[4 * j.val + 2]).toNat
        + 2 ^ 24 * (b[4 * j.val + 3]).toNat

/-- R54: the length field stands least significant byte first, so `X[14]` and `X[15]` are its low and high halves. -/
def Obligations.LengthFieldIsLittleEndian : Prop :=
  ∀ (bits : BitVec 64) (b : Block), (∀ k : Fin 8, some (b[56 + k.val]) = (le64bytes bits)[k.val]?) →
    messageWord b 14 = bits.extractLsb' 0 32 ∧ messageWord b 15 = bits.extractLsb' 32 32

/-- R127: the message-word index of each round, listed; each round uses each word once. -/
def Obligations.EachRoundUsesEachWordOnce : Prop :=
  (List.range 16).map constK = [0, 1, 2, 3, 4, 5, 6, 7, 8, 9, 10, 11, 12, 13, 14, 15] ∧
  (List.range 16).map (fun i => constK (16 + i)) = [1, 6, 11, 0, 5, 10, 15, 4, 9, 14, 3, 8, 13, 2, 7, 12] ∧
  (List.range 16).map (fun i => constK (32 + i)) = [5, 8, 11, 14, 1, 4, 7, 10, 13, 0, 3, 6, 9, 12, 15, 2] ∧
  (List.range 16).map (fun i => constK (48 + i)) = [0, 7, 14, 5, 12, 3, 10, 1, 8, 15, 6, 13, 4, 11, 2, 9] ∧
  (∀ r : Fin 4, ∀ j : Fin 16, ∃ i : Fin 16, constK (16 * r.val + i.val) = j ∧
    ∀ i' : Fin 16, constK (16 * r.val + i'.val) = j → i' = i)

/-- R130: the register-renaming form of the 64 steps and RFC 1321's operand-permuting form give the same result, for every
block and every chaining value. -/
def Obligations.RenamingFormEqualsPermutingForm : Prop :=
  ∀ (blk : Block) (h : Quad), (List.range 64).foldl (rfcStep blk) h = md5Steps blk h 64

/-! ### The host's rendering -/

/-- R107: two characters of HEX a byte, in byte order, high nibble first, no separators; a digest is 32 characters. -/
def Obligations.HexRendersHighNibbleFirst : Prop :=
  (∀ (bs : List Byte) (i : Nat) (b : Byte), bs[i]? = some b →
    (hexRender bs)[2 * i]? =
      ['0', '1', '2', '3', '4', '5', '6', '7', '8', '9', 'A', 'B', 'C', 'D', 'E', 'F'][b.toNat / 16]? ∧
    (hexRender bs)[2 * i + 1]? =
      ['0', '1', '2', '3', '4', '5', '6', '7', '8', '9', 'A', 'B', 'C', 'D', 'E', 'F'][b.toNat % 16]?) ∧
  (∀ bs : List Byte, (hexRender bs).length = 2 * bs.length) ∧
  (∀ q : Quad, (hexRender (digestBytes q)).length = 32)
end

