-- ==== Sys2Proof/Laws/State.lean ====
section
/-! SUPPORT. One lemma per field of State and per update of Machine/Flags.lean and Machine/Ops.lean, so that no proof
unfolds a record update. Each is true by rfl after one unfolding; none is written as a bare rfl, so that simp cites it and the
kernel never compares a state with its update (which would have it evaluate a compression on symbols). -/

namespace Sys2Proof.Machine

variable (s : State)

/-! ### respond -/

@[simp] theorem respond_st (r : BusResponse) : (respond r s).st = s.st := by unfold respond; rfl
@[simp] theorem respond_buf (r : BusResponse) : (respond r s).buf = s.buf := by unfold respond; rfl
@[simp] theorem respond_level (r : BusResponse) : (respond r s).level = s.level := by unfold respond; rfl
@[simp] theorem respond_count (r : BusResponse) : (respond r s).count = s.count := by unfold respond; rfl
@[simp] theorem respond_done (r : BusResponse) : (respond r s).done = s.done := by unfold respond; rfl
@[simp] theorem respond_errCmd (r : BusResponse) : (respond r s).errCmd = s.errCmd := by unfold respond; rfl
@[simp] theorem respond_errSeq (r : BusResponse) : (respond r s).errSeq = s.errSeq := by unfold respond; rfl
@[simp] theorem respond_data (r : BusResponse) : (respond r s).data = s.data := by unfold respond; rfl
@[simp] theorem respond_pending (r : BusResponse) : (respond r s).pending = s.pending := by unfold respond; rfl
@[simp] theorem respond_response (r : BusResponse) : (respond r s).response = r := by unfold respond; rfl

/-! ### storeData -/

@[simp] theorem storeData_st (v : Word) : (storeData v s).st = s.st := by unfold storeData; rfl
@[simp] theorem storeData_buf (v : Word) : (storeData v s).buf = s.buf := by unfold storeData; rfl
@[simp] theorem storeData_level (v : Word) : (storeData v s).level = s.level := by unfold storeData; rfl
@[simp] theorem storeData_count (v : Word) : (storeData v s).count = s.count := by unfold storeData; rfl
@[simp] theorem storeData_done (v : Word) : (storeData v s).done = s.done := by unfold storeData; rfl
@[simp] theorem storeData_errCmd (v : Word) : (storeData v s).errCmd = s.errCmd := by unfold storeData; rfl
@[simp] theorem storeData_errSeq (v : Word) : (storeData v s).errSeq = s.errSeq := by unfold storeData; rfl
@[simp] theorem storeData_data (v : Word) : (storeData v s).data = v := by unfold storeData; rfl
@[simp] theorem storeData_pending (v : Word) : (storeData v s).pending = s.pending := by unfold storeData; rfl
@[simp] theorem storeData_response (v : Word) : (storeData v s).response = s.response := by unfold storeData; rfl

/-! ### recordErrCmd -/

@[simp] theorem recordErrCmd_st : (recordErrCmd s).st = s.st := by unfold recordErrCmd; rfl
@[simp] theorem recordErrCmd_buf : (recordErrCmd s).buf = s.buf := by unfold recordErrCmd; rfl
@[simp] theorem recordErrCmd_level : (recordErrCmd s).level = s.level := by unfold recordErrCmd; rfl
@[simp] theorem recordErrCmd_count : (recordErrCmd s).count = s.count := by unfold recordErrCmd; rfl
@[simp] theorem recordErrCmd_done : (recordErrCmd s).done = s.done := by unfold recordErrCmd; rfl
@[simp] theorem recordErrCmd_errCmd : (recordErrCmd s).errCmd = true := by unfold recordErrCmd; rfl
@[simp] theorem recordErrCmd_errSeq : (recordErrCmd s).errSeq = s.errSeq := by unfold recordErrCmd; rfl
@[simp] theorem recordErrCmd_data : (recordErrCmd s).data = s.data := by unfold recordErrCmd; rfl
@[simp] theorem recordErrCmd_pending : (recordErrCmd s).pending = s.pending := by unfold recordErrCmd; rfl
@[simp] theorem recordErrCmd_response : (recordErrCmd s).response = s.response := by unfold recordErrCmd; rfl

/-! ### recordErrSeq -/

@[simp] theorem recordErrSeq_st : (recordErrSeq s).st = s.st := by unfold recordErrSeq; rfl
@[simp] theorem recordErrSeq_buf : (recordErrSeq s).buf = s.buf := by unfold recordErrSeq; rfl
@[simp] theorem recordErrSeq_level : (recordErrSeq s).level = s.level := by unfold recordErrSeq; rfl
@[simp] theorem recordErrSeq_count : (recordErrSeq s).count = s.count := by unfold recordErrSeq; rfl
@[simp] theorem recordErrSeq_done : (recordErrSeq s).done = s.done := by unfold recordErrSeq; rfl
@[simp] theorem recordErrSeq_errCmd : (recordErrSeq s).errCmd = s.errCmd := by unfold recordErrSeq; rfl
@[simp] theorem recordErrSeq_errSeq : (recordErrSeq s).errSeq = true := by unfold recordErrSeq; rfl
@[simp] theorem recordErrSeq_data : (recordErrSeq s).data = s.data := by unfold recordErrSeq; rfl
@[simp] theorem recordErrSeq_pending : (recordErrSeq s).pending = s.pending := by unfold recordErrSeq; rfl
@[simp] theorem recordErrSeq_response : (recordErrSeq s).response = s.response := by unfold recordErrSeq; rfl

/-! ### clearErrors -/

@[simp] theorem clearErrors_st : (clearErrors s).st = s.st := by unfold clearErrors; rfl
@[simp] theorem clearErrors_buf : (clearErrors s).buf = s.buf := by unfold clearErrors; rfl
@[simp] theorem clearErrors_level : (clearErrors s).level = s.level := by unfold clearErrors; rfl
@[simp] theorem clearErrors_count : (clearErrors s).count = s.count := by unfold clearErrors; rfl
@[simp] theorem clearErrors_done : (clearErrors s).done = s.done := by unfold clearErrors; rfl
@[simp] theorem clearErrors_errCmd : (clearErrors s).errCmd = false := by unfold clearErrors; rfl
@[simp] theorem clearErrors_errSeq : (clearErrors s).errSeq = false := by unfold clearErrors; rfl
@[simp] theorem clearErrors_data : (clearErrors s).data = s.data := by unfold clearErrors; rfl
@[simp] theorem clearErrors_pending : (clearErrors s).pending = s.pending := by unfold clearErrors; rfl
@[simp] theorem clearErrors_response : (clearErrors s).response = s.response := by unfold clearErrors; rfl

/-! ### setDone -/

@[simp] theorem setDone_st : (setDone s).st = s.st := by unfold setDone; rfl
@[simp] theorem setDone_buf : (setDone s).buf = s.buf := by unfold setDone; rfl
@[simp] theorem setDone_level : (setDone s).level = s.level := by unfold setDone; rfl
@[simp] theorem setDone_count : (setDone s).count = s.count := by unfold setDone; rfl
@[simp] theorem setDone_done : (setDone s).done = true := by unfold setDone; rfl
@[simp] theorem setDone_errCmd : (setDone s).errCmd = s.errCmd := by unfold setDone; rfl
@[simp] theorem setDone_errSeq : (setDone s).errSeq = s.errSeq := by unfold setDone; rfl
@[simp] theorem setDone_data : (setDone s).data = s.data := by unfold setDone; rfl
@[simp] theorem setDone_pending : (setDone s).pending = s.pending := by unfold setDone; rfl
@[simp] theorem setDone_response : (setDone s).response = s.response := by unfold setDone; rfl

/-! ### processBlock -/

@[simp] theorem processBlock_st : (processBlock s).st = compress s.st s.buf := by unfold processBlock; rfl
@[simp] theorem processBlock_buf : (processBlock s).buf = zeroBlock := by unfold processBlock; rfl
@[simp] theorem processBlock_level : (processBlock s).level = 0 := by unfold processBlock; rfl
@[simp] theorem processBlock_count : (processBlock s).count = s.count := by unfold processBlock; rfl
@[simp] theorem processBlock_done : (processBlock s).done = s.done := by unfold processBlock; rfl
@[simp] theorem processBlock_errCmd : (processBlock s).errCmd = s.errCmd := by unfold processBlock; rfl
@[simp] theorem processBlock_errSeq : (processBlock s).errSeq = s.errSeq := by unfold processBlock; rfl
@[simp] theorem processBlock_data : (processBlock s).data = s.data := by unfold processBlock; rfl
@[simp] theorem processBlock_pending : (processBlock s).pending = s.pending := by unfold processBlock; rfl
@[simp] theorem processBlock_response : (processBlock s).response = s.response := by unfold processBlock; rfl

/-! ### putByte -/

@[simp] theorem putByte_st (x : Byte) : (putByte x s).st = s.st := by unfold putByte; rfl
@[simp] theorem putByte_buf (x : Byte) : (putByte x s).buf = s.buf.set s.level.toNat x s.level.isLt := by unfold putByte; rfl
@[simp] theorem putByte_level (x : Byte) : (putByte x s).level = s.level := by unfold putByte; rfl
@[simp] theorem putByte_count (x : Byte) : (putByte x s).count = s.count := by unfold putByte; rfl
@[simp] theorem putByte_done (x : Byte) : (putByte x s).done = s.done := by unfold putByte; rfl
@[simp] theorem putByte_errCmd (x : Byte) : (putByte x s).errCmd = s.errCmd := by unfold putByte; rfl
@[simp] theorem putByte_errSeq (x : Byte) : (putByte x s).errSeq = s.errSeq := by unfold putByte; rfl
@[simp] theorem putByte_data (x : Byte) : (putByte x s).data = s.data := by unfold putByte; rfl
@[simp] theorem putByte_pending (x : Byte) : (putByte x s).pending = s.pending := by unfold putByte; rfl
@[simp] theorem putByte_response (x : Byte) : (putByte x s).response = s.response := by unfold putByte; rfl

/-! ### countByte -/

@[simp] theorem countByte_st : (countByte s).st = s.st := by unfold countByte; rfl
@[simp] theorem countByte_buf : (countByte s).buf = s.buf := by unfold countByte; rfl
@[simp] theorem countByte_level : (countByte s).level = s.level := by unfold countByte; rfl
@[simp] theorem countByte_count : (countByte s).count = s.count + 1 := by unfold countByte; rfl
@[simp] theorem countByte_done : (countByte s).done = s.done := by unfold countByte; rfl
@[simp] theorem countByte_errCmd : (countByte s).errCmd = s.errCmd := by unfold countByte; rfl
@[simp] theorem countByte_errSeq : (countByte s).errSeq = s.errSeq := by unfold countByte; rfl
@[simp] theorem countByte_data : (countByte s).data = s.data := by unfold countByte; rfl
@[simp] theorem countByte_pending : (countByte s).pending = s.pending := by unfold countByte; rfl
@[simp] theorem countByte_response : (countByte s).response = s.response := by unfold countByte; rfl

/-! ### initContext -/

@[simp] theorem initContext_st : (initContext s).st = iv := by unfold initContext; rfl
@[simp] theorem initContext_buf : (initContext s).buf = zeroBlock := by unfold initContext; rfl
@[simp] theorem initContext_level : (initContext s).level = 0 := by unfold initContext; rfl
@[simp] theorem initContext_count : (initContext s).count = 0 := by unfold initContext; rfl
@[simp] theorem initContext_done : (initContext s).done = false := by unfold initContext; rfl
@[simp] theorem initContext_errCmd : (initContext s).errCmd = s.errCmd := by unfold initContext; rfl
@[simp] theorem initContext_errSeq : (initContext s).errSeq = s.errSeq := by unfold initContext; rfl
@[simp] theorem initContext_data : (initContext s).data = s.data := by unfold initContext; rfl
@[simp] theorem initContext_pending : (initContext s).pending = s.pending := by unfold initContext; rfl
@[simp] theorem initContext_response : (initContext s).response = s.response := by unfold initContext; rfl

/-! ### dropEvent -/

@[simp] theorem dropEvent_st : (dropEvent s).st = s.st := by unfold dropEvent; rfl
@[simp] theorem dropEvent_buf : (dropEvent s).buf = s.buf := by unfold dropEvent; rfl
@[simp] theorem dropEvent_level : (dropEvent s).level = s.level := by unfold dropEvent; rfl
@[simp] theorem dropEvent_count : (dropEvent s).count = s.count := by unfold dropEvent; rfl
@[simp] theorem dropEvent_done : (dropEvent s).done = s.done := by unfold dropEvent; rfl
@[simp] theorem dropEvent_errCmd : (dropEvent s).errCmd = s.errCmd := by unfold dropEvent; rfl
@[simp] theorem dropEvent_errSeq : (dropEvent s).errSeq = s.errSeq := by unfold dropEvent; rfl
@[simp] theorem dropEvent_data : (dropEvent s).data = s.data := by unfold dropEvent; rfl
@[simp] theorem dropEvent_pending : (dropEvent s).pending = s.pending.tail := by unfold dropEvent; rfl
@[simp] theorem dropEvent_response : (dropEvent s).response = s.response := by unfold dropEvent; rfl

/-! ### postNext -/

@[simp] theorem postNext_st (e : HostEvent) : (postNext e s).st = s.st := by unfold postNext; rfl
@[simp] theorem postNext_buf (e : HostEvent) : (postNext e s).buf = s.buf := by unfold postNext; rfl
@[simp] theorem postNext_level (e : HostEvent) : (postNext e s).level = s.level := by unfold postNext; rfl
@[simp] theorem postNext_count (e : HostEvent) : (postNext e s).count = s.count := by unfold postNext; rfl
@[simp] theorem postNext_done (e : HostEvent) : (postNext e s).done = s.done := by unfold postNext; rfl
@[simp] theorem postNext_errCmd (e : HostEvent) : (postNext e s).errCmd = s.errCmd := by unfold postNext; rfl
@[simp] theorem postNext_errSeq (e : HostEvent) : (postNext e s).errSeq = s.errSeq := by unfold postNext; rfl
@[simp] theorem postNext_data (e : HostEvent) : (postNext e s).data = s.data := by unfold postNext; rfl
@[simp] theorem postNext_pending (e : HostEvent) : (postNext e s).pending = e :: s.pending := by unfold postNext; rfl
@[simp] theorem postNext_response (e : HostEvent) : (postNext e s).response = s.response := by unfold postNext; rfl

/-! ### applyReset -/

@[simp] theorem applyReset_st : (applyReset s).st = iv := by unfold applyReset; rfl
@[simp] theorem applyReset_buf : (applyReset s).buf = zeroBlock := by unfold applyReset; rfl
@[simp] theorem applyReset_level : (applyReset s).level = 0 := by unfold applyReset; rfl
@[simp] theorem applyReset_count : (applyReset s).count = 0 := by unfold applyReset; rfl
@[simp] theorem applyReset_done : (applyReset s).done = false := by unfold applyReset; rfl
@[simp] theorem applyReset_errCmd : (applyReset s).errCmd = false := by unfold applyReset; rfl
@[simp] theorem applyReset_errSeq : (applyReset s).errSeq = false := by unfold applyReset; rfl
@[simp] theorem applyReset_data : (applyReset s).data = 0 := by unfold applyReset; rfl
@[simp] theorem applyReset_pending : (applyReset s).pending = s.pending := by unfold applyReset; rfl
@[simp] theorem applyReset_response : (applyReset s).response = .idle := by unfold applyReset; rfl

/-! ### A state written out -/

theorem respond_mk (q : Quad) (b : Block) (l : BitVec 6) (c : BitVec 64) (d e1 e2 : Bool) (w : Word)
    (p : List HostEvent) (r0 r : BusResponse) :
    respond r ⟨q, b, l, c, d, e1, e2, w, p, r0⟩ = ⟨q, b, l, c, d, e1, e2, w, p, r⟩ := by unfold respond; rfl

theorem setDone_mk (q : Quad) (b : Block) (l : BitVec 6) (c : BitVec 64) (d e1 e2 : Bool) (w : Word)
    (p : List HostEvent) (r : BusResponse) :
    setDone ⟨q, b, l, c, d, e1, e2, w, p, r⟩ = ⟨q, b, l, c, true, e1, e2, w, p, r⟩ := by unfold setDone; rfl

theorem applyReset_eq : applyReset s = ⟨iv, zeroBlock, 0, 0, false, false, false, 0, s.pending, .idle⟩ := by
  unfold applyReset State.reset; rfl

/-! ### The queue -/

@[simp] theorem dropEvent_postNext (e : HostEvent) : dropEvent (postNext e s) = s := rfl

end Sys2Proof.Machine
end

