-- ==== Sys2Proof/Laws/Ops.lean ====
section
/-! SUPPORT. What each shared operation of Machine/Ops.lean can do, said once: the cases of a byte's append, what an append
of bytes leaves alone, and that appending keeps the invariants of spec/10_state.md R30 items 2 and 3. -/

namespace Sys2Proof.Machine

/-! ### One byte -/

/-- A byte that fills the buffer folds it (R103). -/
theorem pushByte_full {s : State} (h : s.level = 63) (x : Byte) : pushByte x s = processBlock (putByte x s) := by
  simp [pushByte, h]

/-- A byte that does not fill the buffer raises the level (R103). -/
theorem pushByte_room {s : State} (h : s.level ≠ 63) (x : Byte) :
    pushByte x s = { putByte x s with level := s.level + 1 } := by
  unfold pushByte
  exact if_neg h

section PushFrame
variable (x : Byte) (s : State)

@[simp] theorem pushByte_count : (pushByte x s).count = s.count := by unfold pushByte; split <;> simp
@[simp] theorem pushByte_done : (pushByte x s).done = s.done := by unfold pushByte; split <;> simp
@[simp] theorem pushByte_errCmd : (pushByte x s).errCmd = s.errCmd := by unfold pushByte; split <;> simp
@[simp] theorem pushByte_errSeq : (pushByte x s).errSeq = s.errSeq := by unfold pushByte; split <;> simp
@[simp] theorem pushByte_data : (pushByte x s).data = s.data := by unfold pushByte; split <;> simp
@[simp] theorem pushByte_pending : (pushByte x s).pending = s.pending := by unfold pushByte; split <;> simp
@[simp] theorem pushByte_response : (pushByte x s).response = s.response := by unfold pushByte; split <;> simp

/-- The level counts modulo 64: a full buffer is emptied (R24). -/
@[simp] theorem pushByte_level : (pushByte x s).level = s.level + 1 := by
  unfold pushByte
  split
  · next h => simp [h]
  · rfl

end PushFrame

section AbsorbFrame
variable (x : Byte) (s : State)

@[simp] theorem absorbByte_count : (absorbByte x s).count = s.count + 1 := by simp [absorbByte]
@[simp] theorem absorbByte_done : (absorbByte x s).done = s.done := by simp [absorbByte]
@[simp] theorem absorbByte_errCmd : (absorbByte x s).errCmd = s.errCmd := by simp [absorbByte]
@[simp] theorem absorbByte_errSeq : (absorbByte x s).errSeq = s.errSeq := by simp [absorbByte]
@[simp] theorem absorbByte_data : (absorbByte x s).data = s.data := by simp [absorbByte]
@[simp] theorem absorbByte_pending : (absorbByte x s).pending = s.pending := by simp [absorbByte]
@[simp] theorem absorbByte_response : (absorbByte x s).response = s.response := by simp [absorbByte]
@[simp] theorem absorbByte_level : (absorbByte x s).level = s.level + 1 := by simp [absorbByte]

end AbsorbFrame

/-! ### Bytes in order -/

@[simp] theorem pushBytes_nil (s : State) : pushBytes [] s = s := rfl
@[simp] theorem pushBytes_cons (x : Byte) (xs : List Byte) (s : State) :
    pushBytes (x :: xs) s = pushBytes xs (pushByte x s) := rfl
theorem pushBytes_append (xs ys : List Byte) (s : State) :
    pushBytes (xs ++ ys) s = pushBytes ys (pushBytes xs s) := by simp [pushBytes, List.foldl_append]

@[simp] theorem absorbBytes_nil (s : State) : absorbBytes [] s = s := rfl
@[simp] theorem absorbBytes_cons (x : Byte) (xs : List Byte) (s : State) :
    absorbBytes (x :: xs) s = absorbBytes xs (absorbByte x s) := rfl
theorem absorbBytes_append (xs ys : List Byte) (s : State) :
    absorbBytes (xs ++ ys) s = absorbBytes ys (absorbBytes xs s) := by simp [absorbBytes, List.foldl_append]

/-- The fields an append of padding bytes never writes (R25, R27, R28). -/
theorem pushBytes_frame (xs : List Byte) (s : State) :
    (pushBytes xs s).count = s.count ∧ (pushBytes xs s).done = s.done ∧ (pushBytes xs s).errCmd = s.errCmd ∧
      (pushBytes xs s).errSeq = s.errSeq ∧ (pushBytes xs s).data = s.data ∧
      (pushBytes xs s).pending = s.pending ∧ (pushBytes xs s).response = s.response := by
  induction xs generalizing s with
  | nil => simp
  | cons x xs ih => simp [ih]

/-- The fields an append of message bytes never writes (R27, R28). -/
theorem absorbBytes_frame (xs : List Byte) (s : State) :
    (absorbBytes xs s).done = s.done ∧ (absorbBytes xs s).errCmd = s.errCmd ∧
      (absorbBytes xs s).errSeq = s.errSeq ∧ (absorbBytes xs s).data = s.data ∧
      (absorbBytes xs s).pending = s.pending ∧ (absorbBytes xs s).response = s.response := by
  induction xs generalizing s with
  | nil => simp
  | cons x xs ih => simp [ih]

/-- The counter counts the message bytes, modulo 2^64 (R25). -/
theorem absorbBytes_count (xs : List Byte) (s : State) :
    (absorbBytes xs s).count = s.count + BitVec.ofNat 64 xs.length := by
  induction xs generalizing s with
  | nil => simp
  | cons x xs ih => simp [ih, BitVec.ofNat_add, BitVec.add_assoc, BitVec.add_comm 1#64]

/-- Absorbing is appending, and then counting (R103). -/
theorem absorbBytes_eq_pushBytes (xs : List Byte) (s : State) :
    absorbBytes xs s = { pushBytes xs s with count := s.count + BitVec.ofNat 64 xs.length } := by
  induction xs generalizing s with
  | nil => simp
  | cons x xs ih =>
    rw [absorbBytes_cons, ih, pushBytes_cons]
    have h : ∀ (ys : List Byte) (t : State) (c : BitVec 64),
        pushBytes ys { t with count := c } = { pushBytes ys t with count := c } := by
      intro ys
      induction ys with
      | nil => intro t c; rfl
      | cons y ys ihy =>
        intro t c
        rw [pushBytes_cons, pushBytes_cons, ← ihy]
        congr 1
        unfold pushByte
        split <;> rfl
    have e : absorbByte x s = { pushByte x s with count := s.count + 1 } := by
      unfold absorbByte pushByte
      split <;> split <;> first | rfl | contradiction
    rw [e, h]
    simp [BitVec.ofNat_add, BitVec.add_assoc, BitVec.add_comm 1#64]

end Sys2Proof.Machine
end

