-- ==== Sys2Proof/Laws/Exec.lean ====
section
/-! SUPPORT. What each meaning with more than one outcome answers, case by case, and what a step of a posted event is; later
proofs cite these instead of unfolding the meanings. -/

namespace Sys2Proof.Machine

/-- Taking an error answers a next state only for a command error, and then only its flag and the answer are new. -/
theorem raiseError_next {c : ErrorCause} {s t : State} (h : raiseError c s = .next t) :
    (c = .errCmd ∧ t = respond .ok (recordErrCmd s)) ∨ (c = .errSeq ∧ t = respond .ok (recordErrSeq s)) := by
  cases c with
  | busErr r o => simp [raiseError] at h
  | errCmd => left; simpa [raiseError, completeWrite] using h.symm
  | errSeq => right; simpa [raiseError, completeWrite] using h.symm

/-- A read answers its word and changes nothing else (R58). -/
theorem answerRead_next {w : Word} {s t : State} (h : answerRead w s = .next t) : t = respond (.data w) s := by
  simpa [answerRead] using h.symm

/-- ABSORB of a count out of range. -/
theorem execAbsorb_out {n : BitVec 3} (h : countInRange n = false) (s : State) :
    execAbsorb n s = .next (respond .ok (recordErrCmd s)) := by
  simp [execAbsorb, h, raiseError, completeWrite]

/-- ABSORB of a finalized context. -/
theorem execAbsorb_done {n : BitVec 3} {s : State} (h : countInRange n = true) (hd : s.done = true) :
    execAbsorb n s = .next (respond .ok (recordErrSeq s)) := by
  simp [execAbsorb, h, hd, raiseError, completeWrite]

/-- ABSORB of an open context. -/
theorem execAbsorb_open {n : BitVec 3} {s : State} (h : countInRange n = true) (hd : s.done = false) :
    execAbsorb n s = .next (respond .ok (absorbBytes (lanes s.data n.toNat) s)) := by
  simp [execAbsorb, h, hd, completeWrite]

/-- FINAL of a finalized context. -/
theorem execFinal_done {s : State} (hd : s.done = true) : execFinal s = .next (respond .ok (recordErrSeq s)) := by
  simp [execFinal, hd, raiseError, completeWrite]

/-- FINAL of an open context. -/
theorem execFinal_open {s : State} (hd : s.done = false) : execFinal s = .next (respond .ok (finish s)) := by
  simp [execFinal, hd, completeWrite]

/-- A write of CMD with an illegal word. -/
theorem execWrCmd_error {w : Word} {r : CmdErrReason} (h : decodeCommand w = .error r) (s : State) :
    execWrCmd w s = .next (respond .ok (recordErrCmd s)) := by
  simp [execWrCmd, h, raiseError, completeWrite]

/-- A step of a posted event performs it in the state it was posted in. -/
@[simp] theorem step_postNext (e : HostEvent) (s : State) : step (postNext e s) = performEvent e s := rfl

/-- The lanes taken are as many as the count says. -/
@[simp] theorem lanes_length (v : Word) (n : Nat) : (lanes v n).length = n := by simp [lanes]

end Sys2Proof.Machine
end

