-- ==== Sys2Proof/Laws/Message.lean ====
section
/-! SUPPORT. The buffer and the chaining registers as a function of the bytes appended: one lemma per append operation, from
which the claims about messages follow (spec/10_state.md R23, R24, R30; spec/41_compression.md R132, R133). -/

namespace Sys2Proof.Machine

/-- The chaining registers, level and buffer are those of the byte string `p` appended to the initial context, message and
padding alike: the whole blocks folded, the rest held, the rest of the buffer zero (R24, R132). -/
def Buffers (s : State) (p : List Byte) : Prop :=
  s.st = foldBlocks p (p.length / 64) ∧ s.level = BitVec.ofNat 6 p.length ∧ s.buf = blockAt p (p.length / 64)

/-! ### Blocks of a byte string -/

@[simp] theorem blockAt_getElem (p : List Byte) (q k : Nat) (h : k < 64) :
    (blockAt p q)[k] = p.getD (64 * q + k) 0 := by
  simp [blockAt]

/-- Bytes behind a block do not enter it. -/
theorem blockAt_append {p xs : List Byte} {q : Nat} (h : 64 * q + 64 ≤ p.length) :
    blockAt (p ++ xs) q = blockAt p q := by
  apply Vector.ext
  intro k hk
  rw [blockAt_getElem _ _ _ hk, blockAt_getElem _ _ _ hk]
  simp only [List.getD_eq_getElem?_getD]
  rw [List.getElem?_append_left (by omega)]

/-- A block behind the end of the byte string is zero. -/
theorem blockAt_past {p : List Byte} {q : Nat} (h : p.length ≤ 64 * q) : blockAt p q = zeroBlock := by
  apply Vector.ext
  intro k hk
  rw [blockAt_getElem _ _ _ hk]
  simp only [List.getD_eq_getElem?_getD]
  rw [List.getElem?_eq_none (by omega)]
  simp [zeroBlock]

theorem foldBlocks_succ (p : List Byte) (n : Nat) :
    foldBlocks p (n + 1) = compress (foldBlocks p n) (blockAt p n) := by
  unfold foldBlocks
  rw [List.range_succ, List.foldl_append, List.foldl_cons, List.foldl_nil]

/-- Bytes behind the whole blocks do not change what they fold to. -/
theorem foldBlocks_append {p xs : List Byte} {n : Nat} (h : 64 * n ≤ p.length) :
    foldBlocks (p ++ xs) n = foldBlocks p n := by
  induction n with
  | zero => simp [foldBlocks]
  | succ n ih => rw [foldBlocks_succ, foldBlocks_succ, ih (by omega), blockAt_append (by omega)]

/-- One byte more, written where the rest of the byte string ends. -/
theorem blockAt_snoc (p : List Byte) (x : Byte) (l : Nat) (hl : l = p.length % 64) (h : l < 64) :
    (blockAt p (p.length / 64)).set l x h = blockAt (p ++ [x]) (p.length / 64) := by
  apply Vector.ext
  intro k hk
  rw [Vector.getElem_set, blockAt_getElem _ _ _ hk, blockAt_getElem _ _ _ hk]
  simp only [List.getD_eq_getElem?_getD]
  split
  · next e =>
    subst e
    rw [List.getElem?_append_right (by omega)]
    simp [show 64 * (p.length / 64) + l - p.length = 0 by omega]
  · next e =>
    rcases Nat.lt_or_ge (64 * (p.length / 64) + k) p.length with c | c
    · rw [List.getElem?_append_left c]
    · rw [List.getElem?_eq_none c, List.getElem?_eq_none (by simp; omega)]

/-! ### Appending -/

/-- Appending a byte appends it to the byte string (R103, R104, R132). -/
theorem Buffers.push {s : State} {p : List Byte} (h : Buffers s p) (x : Byte) :
    Buffers (pushByte x s) (p ++ [x]) := by
  obtain ⟨hst, hlv, hbuf⟩ := h
  have hln : s.level.toNat = p.length % 64 := by rw [hlv, BitVec.toNat_ofNat]
  have hput : (putByte x s).buf = blockAt (p ++ [x]) (p.length / 64) := by
    rw [putByte_buf]
    rw [← blockAt_snoc p x s.level.toNat hln s.level.isLt]
    simp [hbuf]
  have hlev : s.level + 1 = BitVec.ofNat 6 (p ++ [x]).length := by
    rw [hlv, List.length_append, List.length_singleton, BitVec.ofNat_add]; rfl
  have hlen : (p ++ [x]).length = p.length + 1 := by simp
  by_cases hf : s.level = 63
  · have h63 : p.length % 64 = 63 := by rw [← hln, hf]; rfl
    have hq : (p ++ [x]).length / 64 = p.length / 64 + 1 := by omega
    rw [pushByte_full hf]
    refine ⟨?_, ?_, ?_⟩
    · rw [processBlock_st, putByte_st, hput, hst, hq, foldBlocks_succ, foldBlocks_append (by omega)]
    · rw [processBlock_level, ← hlev, hf]; rfl
    · rw [processBlock_buf, blockAt_past (by omega)]
  · have h63 : p.length % 64 ≠ 63 := fun c => hf (BitVec.eq_of_toNat_eq (by rw [hln, c]; rfl))
    have hq : (p ++ [x]).length / 64 = p.length / 64 := by omega
    rw [pushByte_room hf]
    refine ⟨?_, hlev, ?_⟩
    · rw [hq, foldBlocks_append (by omega)]; exact hst
    · rw [hq]; exact hput

/-- Appending bytes appends them to the byte string. -/
theorem Buffers.pushAll {s : State} {p : List Byte} (h : Buffers s p) (xs : List Byte) :
    Buffers (pushBytes xs s) (p ++ xs) := by
  induction xs generalizing s p with
  | nil => simpa using h
  | cons x xs ih =>
    have := ih (h.push x)
    rwa [List.append_assoc] at this

/-- The initial context holds the empty byte string (R101). -/
theorem Buffers.empty {s : State} (hst : s.st = iv) (hl : s.level = 0) (hb : s.buf = zeroBlock) : Buffers s [] :=
  ⟨by rw [hst]; rfl, by rw [hl]; rfl, by rw [hb, blockAt_past (by simp)]⟩

/-! ### The buffer after an append, byte by byte -/

/-- The buffer with the bytes written from `level` on. -/
def fill (s : State) (xs : List Byte) : Block :=
  Vector.ofFn fun k : Fin 64 =>
    if s.level.toNat ≤ k.val ∧ k.val < s.level.toNat + xs.length then xs.getD (k.val - s.level.toNat) 0 else s.buf[k]

theorem fill_getElem (s : State) (xs : List Byte) (k : Nat) (h : k < 64) :
    (fill s xs)[k] =
      if s.level.toNat ≤ k ∧ k < s.level.toNat + xs.length then xs.getD (k - s.level.toNat) 0 else s.buf[k] := by
  simp [fill]

/-- Bytes that leave the buffer unfilled (R103, R104). -/
theorem pushBytes_inside (xs : List Byte) (s : State) (h : s.level.toNat + xs.length < 64) :
    pushBytes xs s = { s with buf := fill s xs, level := BitVec.ofNat 6 (s.level.toNat + xs.length) } := by
  induction xs generalizing s with
  | nil =>
    have h1 : fill s [] = s.buf := by
      apply Vector.ext; intro k hk; rw [fill_getElem _ _ _ hk, if_neg (by simp)]
    simp [h1]
  | cons x xs ih =>
    have hl := s.level.isLt
    simp only [List.length_cons] at h
    have hne : s.level ≠ 63 := by intro c; rw [c] at h; have : (63 : BitVec 6).toNat = 63 := rfl; omega
    have h1 : (s.level + 1).toNat = s.level.toNat + 1 := by rw [BitVec.toNat_add]; have : (1 : BitVec 6).toNat = 1 := rfl; omega
    rw [pushBytes_cons, pushByte_room hne, ih _ (by simp only [h1]; omega)]
    have e1 : fill { putByte x s with level := s.level + 1 } xs = fill s (x :: xs) := by
      apply Vector.ext; intro k hk
      rw [fill_getElem _ _ _ hk, fill_getElem _ _ _ hk]
      simp only [h1, putByte_buf, Vector.getElem_set, List.length_cons]
      by_cases c : s.level.toNat = k
      · subst c; simp
      · by_cases c2 : s.level.toNat + 1 ≤ k ∧ k < s.level.toNat + 1 + xs.length
        · rw [if_pos c2, if_pos (by omega)]
          rw [show k - s.level.toNat = (k - (s.level.toNat + 1)) + 1 by omega]
          simp
        · rw [if_neg c2, if_neg c, if_neg (by omega)]
    rw [e1]
    simp only [h1, putByte, List.length_cons]
    congr 2
    omega

/-- Bytes that fill the buffer exactly: it is folded and emptied (R103, R104, R132). -/
theorem pushBytes_fills (xs : List Byte) (s : State) (h : s.level.toNat + xs.length = 64) :
    pushBytes xs s = { s with st := compress s.st (fill s xs), buf := zeroBlock, level := 0 } := by
  have hl := s.level.isLt
  obtain ⟨ys, y, rfl⟩ : ∃ ys y, xs = ys ++ [y] := by
    refine ⟨xs.dropLast, xs.getLast (by rintro rfl; simp at h; omega), ?_⟩
    rw [List.dropLast_append_getLast]
  simp only [List.length_append, List.length_singleton] at h
  rw [pushBytes_append, pushBytes_inside ys s (by omega), pushBytes_cons, pushBytes_nil, pushByte_full (by
    apply BitVec.eq_of_toNat_eq; rw [BitVec.toNat_ofNat]; have : (63 : BitVec 6).toNat = 63 := rfl; omega)]
  unfold processBlock putByte
  have : Vector.set (fill s ys) (BitVec.ofNat 6 (s.level.toNat + ys.length)).toNat y (BitVec.isLt _) = fill s (ys ++ [y]) := by
    apply Vector.ext; intro k hk
    rw [Vector.getElem_set, fill_getElem _ _ _ hk, fill_getElem _ _ _ hk]
    simp only [BitVec.toNat_ofNat, List.length_append, List.length_singleton, List.getD_eq_getElem?_getD]
    rw [Nat.mod_eq_of_lt (by omega)]
    by_cases c : s.level.toNat + ys.length = k
    · subst c
      rw [if_pos rfl, if_pos (by omega), List.getElem?_append_right (by omega)]; simp
    · rw [if_neg c]
      by_cases c2 : s.level.toNat ≤ k ∧ k < s.level.toNat + ys.length
      · rw [if_pos c2, if_pos (by omega), List.getElem?_append_left (by omega)]
      · rw [if_neg c2, if_neg (by omega)]
  rw [← this]

/-! ### The padding -/

/-- `z = (55 - level) mod 64` (R105). -/
theorem padZeros_eq (level : BitVec 6) : padZeros level = (119 - level.toNat) % 64 := by
  have := level.isLt
  simp only [padZeros, BitVec.toNat_sub]
  have : (55 : BitVec 6).toNat = 55 := rfl
  omega

theorem pad_length (level : BitVec 6) (bits : BitVec 64) : (pad level bits).length = 9 + padZeros level := by
  simp [pad, le64bytes]; omega

/-- A padded message is a whole number of blocks (R105). -/
theorem paddedMessage_length_mod (m : List Byte) : (paddedMessage m).length % 64 = 0 := by
  rw [paddedMessage, List.length_append, pad_length, padZeros_eq, BitVec.toNat_ofNat]
  omega

end Sys2Proof.Machine
end

