-- ==== Sys2Proof/Laws/PerInstr.lean ====
section
/-! SUPPORT. Per instruction: its encoding matches its row of spec/opcode_table.json, in the row's width, mask and match. -/

namespace Sys2Proof.Laws.MatchesRow

/-- The width of an instruction's row (opcode_table.json). -/
def width : Instr → Nat
  | .rdId => 7
  | .rdStatus => 7
  | .rdCmd => 7
  | .rdData => 7
  | .rdCountLo => 7
  | .rdCountHi => 7
  | .rdDigest _ => 7
  | .wrData _ => 7
  | .wrCmd _ => 7
  | .nop => 32
  | .init => 32
  | .absorb _ => 32
  | .final => 32
  | .clrerr => 32

/-- The mask of an instruction's row (opcode_table.json). -/
def mask : Instr → Nat
  | .rdDigest _ => 0x73
  | .rdId => 0x7F
  | .rdStatus => 0x7F
  | .rdCmd => 0x7F
  | .rdData => 0x7F
  | .rdCountLo => 0x7F
  | .rdCountHi => 0x7F
  | .wrData _ => 0x7F
  | .wrCmd _ => 0x7F
  | .absorb _ => 0xFFFFFF8F
  | .nop => 0xFFFFFFFF
  | .init => 0xFFFFFFFF
  | .final => 0xFFFFFFFF
  | .clrerr => 0xFFFFFFFF

/-- The match of an instruction's row (opcode_table.json). -/
def pattern : Instr → Nat
  | .rdId => 0x00
  | .rdStatus => 0x04
  | .rdCmd => 0x08
  | .rdData => 0x0C
  | .rdCountLo => 0x10
  | .rdCountHi => 0x14
  | .rdDigest _ => 0x20
  | .wrData _ => 0x4C
  | .wrCmd _ => 0x48
  | .nop => 0x00000000
  | .init => 0x00000001
  | .absorb _ => 0x00000002
  | .final => 0x00000003
  | .clrerr => 0x00000004

/-- The bits of a form as the table numbers them, with how many they are. -/
def bits : Form → Nat × Nat
  | .formB d _ => (7, d.toNat)
  | .formC w => (32, w.toNat)

/-- A well-formed instruction's encoding has its row's width and matches its row. -/
def Statement (i : Instr) : Prop :=
  i.wf = true → (bits (encode i)).1 = width i ∧ (bits (encode i)).2 &&& mask i = pattern i

theorem rdId : Statement .rdId := by unfold Statement; decide
theorem rdStatus : Statement .rdStatus := by unfold Statement; decide
theorem rdCmd : Statement .rdCmd := by unfold Statement; decide
theorem rdData : Statement .rdData := by unfold Statement; decide
theorem rdCountLo : Statement .rdCountLo := by unfold Statement; decide
theorem rdCountHi : Statement .rdCountHi := by unfold Statement; decide
theorem rdDigest (n : BitVec 2) : Statement (.rdDigest n) := by revert n; unfold Statement; decide
theorem wrData (v : Word) : Statement (.wrData v) := fun _ => ⟨rfl, by simp [bits, encode, mask, pattern]⟩
theorem wrCmd (w : Word) : Statement (.wrCmd w) := fun _ => ⟨rfl, by simp [bits, encode, mask, pattern]⟩
theorem nop : Statement .nop := by unfold Statement; decide
theorem init : Statement .init := by unfold Statement; decide
theorem absorb (n : BitVec 3) : Statement (.absorb n) := by revert n; unfold Statement; decide
theorem final : Statement .final := by unfold Statement; decide
theorem clrerr : Statement .clrerr := by unfold Statement; decide

end Sys2Proof.Laws.MatchesRow
end

