-- ==== Sys2Proof/Laws/Platform.lean ====
section
/-! SUPPORT. Windows and byte addresses: which instance an address belongs to, and which byte stands at an address. -/

namespace Sys2Proof.Machine

/-! ### Windows -/

/-- An address lies in the window of the 64-byte unit it stands in (R50). -/
theorem inWindow_iff {i addr : Nat} : inWindow i addr = true ↔ addr / 64 = Config.instancePage i := by
  simp only [inWindow, Bool.and_eq_true, decide_eq_true_eq]
  unfold Config.instanceBase
  omega

/-- The windows stand at rising addresses (R164). -/
theorem instancePage_lt {i j : Nat} (h : i < j) : Config.instancePage i < Config.instancePage j := by
  induction j with
  | zero => omega
  | succ j ih =>
    rcases Nat.lt_succ_iff_lt_or_eq.1 h with h | rfl <;> simp only [Config.instancePage]
    · have := ih h
      omega
    · omega

/-- An address lies in one window at most (R164). -/
theorem inWindow_unique {i j addr : Nat} (hi : inWindow i addr = true) (hj : inWindow j addr = true) : i = j := by
  rw [inWindow_iff] at hi hj
  rcases Nat.lt_trichotomy i j with h | h | h
  · have := instancePage_lt h
    omega
  · exact h
  · have := instancePage_lt h
    omega

/-- The owner of an address is the instance whose window holds it (R50). -/
theorem ownerOf_inWindow {n i addr : Nat} (hn : i < n) (h : inWindow i addr = true) : ownerOf n addr = some i := by
  unfold ownerOf
  cases ho : (List.range n).find? fun j => inWindow j addr with
  | none => exact absurd h (List.find?_eq_none.1 ho i (List.mem_range.2 hn))
  | some j =>
    have hj : inWindow j addr = true := by simpa using List.find?_some ho
    rw [inWindow_unique hj h]

/-- Every register of an instance stands in its window (R50). -/
theorem registerAddress_inWindow (i : Nat) (off : BitVec 6) : inWindow i (registerAddress i off) = true := by
  have := off.isLt
  rw [inWindow_iff]
  simp [registerAddress, Config.instanceBase]
  omega

/-- The core receives the register's offset (R50). -/
@[simp] theorem offsetIn_registerAddress (i : Nat) (off : BitVec 6) : offsetIn i (registerAddress i off) = off := by
  simp [offsetIn, registerAddress]

/-- An access at a register's address is an access of that register of that instance (R50). -/
theorem platformAccess_register {i : Nat} {p : Platform} (hi : i < p.length) (dir : Dir) (off : BitVec 6) (width : Nat)
    (v : Word) :
    platformAccess dir (registerAddress i off) width v p =
      (platformEvent i (.access { dir := dir, off := off, width := width, value := v }) p).map
        fun x => (some x.1, x.2) := by
  unfold platformAccess
  rw [ownerOf_inWindow hi (registerAddress_inWindow i off)]
  simp only [accessAt, offsetIn_registerAddress]
  cases platformEvent i (.access { dir := dir, off := off, width := width, value := v }) p <;> rfl

/-! ### Lanes -/

section Lanes
variable (b0 b1 b2 b3 : Byte)

/-- The value of four bytes, the first the lowest (R10). -/
theorem le32_toNat :
    (le32 b0 b1 b2 b3).toNat = b0.toNat + 2 ^ 8 * b1.toNat + 2 ^ 16 * b2.toNat + 2 ^ 24 * b3.toNat := by
  have h0 := b0.isLt
  have h1 := b1.isLt
  have h2 := b2.isLt
  unfold le32
  simp only [BitVec.toNat_append]
  rw [← Nat.shiftLeft_add_eq_or_of_lt h2, ← Nat.shiftLeft_add_eq_or_of_lt h1, ← Nat.shiftLeft_add_eq_or_of_lt h0]
  simp only [Nat.shiftLeft_eq]
  omega

/-- Lane `k` is byte `k` of the value (R52). -/
theorem lane_toNat (v : Word) (k : Nat) : (lane v k).toNat = v.toNat / 2 ^ (8 * k) % 2 ^ 8 := by
  simp [lane, Nat.shiftRight_eq_div_pow]

/-- The lanes of a word are the bytes it is made of, in order (R10, R52). -/
theorem lanes_le32 : lanes (le32 b0 b1 b2 b3) 4 = [b0, b1, b2, b3] := by
  have h0 := b0.isLt
  have h1 := b1.isLt
  have h2 := b2.isLt
  have h3 := b3.isLt
  have h := le32_toNat b0 b1 b2 b3
  have lane_eq : ∀ (k : Nat) (b : Byte), (le32 b0 b1 b2 b3).toNat / 2 ^ (8 * k) % 2 ^ 8 = b.toNat →
      lane (le32 b0 b1 b2 b3) k = b := fun k b hb => BitVec.eq_of_toNat_eq ((lane_toNat _ k).trans hb)
  simp only [lanes, List.range_succ, List.range_zero, List.nil_append, List.cons_append, List.map_cons, List.map_nil]
  rw [lane_eq 0 b0 (by omega), lane_eq 1 b1 (by omega), lane_eq 2 b2 (by omega), lane_eq 3 b3 (by omega)]

end Lanes

/-- The four bytes of a transfer, lowest address first. -/
theorem busBytes_eq (addr : Nat) (v : Word) :
    busBytes addr v = [(addr, lane v 0), (addr + 1, lane v 1), (addr + 2, lane v 2), (addr + 3, lane v 3)] := rfl

end Sys2Proof.Machine
end

