-- ==== Sys2Proof/Laws/Step.lean ====
section
/-! SUPPORT. What a step can do, said once: the cases of a step that answers a next state, and of a command. Claims about
every step cite these two. -/

namespace Sys2Proof.Machine

theorem next_inj {s t : State} (h : (Host.Outcome.next s : Host.Outcome State Fault Refusal) = .next t) : t = s := by
  injection h with h
  exact h.symm

/-- A format-B decoding gives no command: a command is what a `wr CMD` carries (R70). -/
theorem decodeAccess_cases {a : BusAccess} {i : Instr} (h : decodeAccess a = .ok i) :
    i = .rdId ∨ i = .rdStatus ∨ i = .rdCmd ∨ i = .rdData ∨ i = .rdCountLo ∨ i = .rdCountHi ∨ (∃ n, i = .rdDigest n) ∨
      i = .wrData a.value ∨ i = .wrCmd a.value := by
  unfold decodeAccess at h
  split at h
  · cases h
  · unfold decodeDescriptor at h
    repeat (split at h; · (simp only [Except.ok.injEq] at h; subst h; simp))
    simp at h

/-- A word that decodes to `absorb N` has N in range (R75). -/
theorem decodeCommand_absorb {w : Word} {n : BitVec 3} (h : decodeCommand w = .ok (.absorb n)) :
    countInRange n = true := by
  unfold decodeCommand at h
  split at h
  · cases h
  · split at h
    · split at h
      · simp only [Except.ok.injEq, Command.absorb.injEq] at h
        subst h
        assumption
      · cases h
    · repeat (split at h; · (split at h <;> simp at h))
      simp at h

/-- What a command answers, case by case (R100 to R106). -/
theorem command_cases {c : Command} {s t : State} (hw : c.wf = true) (h : exec c.toInstr s = .next t) :
    (c = .nop ∧ t = respond .ok s) ∨
    (c = .init ∧ t = respond .ok (initContext s)) ∨
    (c = .clrerr ∧ t = respond .ok (clearErrors s)) ∨
    (c = .final ∧ s.done = true ∧ t = respond .ok (recordErrSeq s)) ∨
    (c = .final ∧ s.done = false ∧ t = respond .ok (finish s)) ∨
    (∃ n, c = .absorb n ∧ s.done = true ∧ t = respond .ok (recordErrSeq s)) ∨
    (∃ n, c = .absorb n ∧ s.done = false ∧ t = respond .ok (absorbBytes (lanes s.data n.toNat) s)) := by
  cases c with
  | nop => exact .inl ⟨rfl, next_inj h⟩
  | init => exact .inr (.inl ⟨rfl, next_inj h⟩)
  | clrerr => exact .inr (.inr (.inl ⟨rfl, next_inj h⟩))
  | final =>
    simp only [Command.toInstr, exec] at h
    cases hd : s.done with
    | true => rw [execFinal_done hd] at h; exact .inr (.inr (.inr (.inl ⟨rfl, rfl, next_inj h⟩)))
    | false => rw [execFinal_open hd] at h; exact .inr (.inr (.inr (.inr (.inl ⟨rfl, rfl, next_inj h⟩))))
  | absorb n =>
    simp only [Command.toInstr, exec] at h
    cases hd : s.done with
    | true =>
      rw [execAbsorb_done hw hd] at h
      exact .inr (.inr (.inr (.inr (.inr (.inl ⟨n, rfl, rfl, next_inj h⟩)))))
    | false =>
      rw [execAbsorb_open hw hd] at h
      exact .inr (.inr (.inr (.inr (.inr (.inr ⟨n, rfl, rfl, next_inj h⟩)))))

/-- What a step of a posted event that answers a next state has done: a reset, a read, a DATA write, an illegal word's
record, or a command (R90, R99, R170). -/
theorem step_cases {e : HostEvent} {s t : State} (h : step (postNext e s) = .next t) :
    (e = .reset ∧ t = applyReset s) ∨
    (∃ a i w, e = .access a ∧ decodeAccess a = .ok i ∧ (∀ v, i ≠ .wrCmd v) ∧ (∀ v, i ≠ .wrData v) ∧
      exec i s = answerRead w s ∧ t = respond (.data w) s) ∨
    (∃ a v, e = .access a ∧ decodeAccess a = .ok (.wrData v) ∧ t = respond .ok (storeData v s)) ∨
    (∃ a w r, e = .access a ∧ decodeAccess a = .ok (.wrCmd w) ∧ decodeCommand w = .error r ∧
      t = respond .ok (recordErrCmd s)) ∨
    (∃ a w c, e = .access a ∧ decodeAccess a = .ok (.wrCmd w) ∧ decodeCommand w = .ok c ∧ c.wf = true ∧
      exec c.toInstr s = .next t) := by
  rw [step_postNext] at h
  cases e with
  | reset => exact .inl ⟨rfl, next_inj h⟩
  | accessDuringReset a => simp [performEvent, refuseDuringReset] at h
  | access a =>
    simp only [performEvent] at h
    cases hd : decodeAccess a with
    | error r => simp [hd, busError, raiseError] at h
    | ok i =>
      rw [hd] at h
      simp only at h
      have read : ∀ w, exec i s = answerRead w s → (∀ v, i ≠ .wrCmd v) → (∀ v, i ≠ .wrData v) →
          t = respond (.data w) s := fun w hw _ _ => answerRead_next (hw ▸ h)
      rcases decodeAccess_cases hd with rfl | rfl | rfl | rfl | rfl | rfl | ⟨n, rfl⟩ | rfl | rfl
      · exact .inr (.inl ⟨a, _, idValue, rfl, hd, by simp, by simp, rfl, read _ rfl (by simp) (by simp)⟩)
      · exact .inr (.inl ⟨a, _, statusWord s, rfl, hd, by simp, by simp, rfl, read _ rfl (by simp) (by simp)⟩)
      · exact .inr (.inl ⟨a, _, 0, rfl, hd, by simp, by simp, rfl, read _ rfl (by simp) (by simp)⟩)
      · exact .inr (.inl ⟨a, _, s.data, rfl, hd, by simp, by simp, rfl, read _ rfl (by simp) (by simp)⟩)
      · exact .inr (.inl ⟨a, _, countLow s.count, rfl, hd, by simp, by simp, rfl, read _ rfl (by simp) (by simp)⟩)
      · exact .inr (.inl ⟨a, _, countHigh s.count, rfl, hd, by simp, by simp, rfl, read _ rfl (by simp) (by simp)⟩)
      · exact .inr (.inl ⟨a, _, quadWord s.st n, rfl, hd, by simp, by simp, rfl, read _ rfl (by simp) (by simp)⟩)
      · exact .inr (.inr (.inl ⟨a, _, rfl, hd, next_inj h⟩))
      · cases hc : decodeCommand a.value with
        | error r =>
          rw [exec, execWrCmd_error hc] at h
          exact .inr (.inr (.inr (.inl ⟨a, _, r, rfl, hd, hc, next_inj h⟩)))
        | ok c =>
          have hw : c.wf = true := by
            cases c with
            | absorb n => exact decodeCommand_absorb hc
            | nop => rfl
            | init => rfl
            | final => rfl
            | clrerr => rfl
          have hx : exec c.toInstr s = .next t := by
            rw [← h]
            simp only [exec, execWrCmd, hc]
            cases c <;> rfl
          exact .inr (.inr (.inr (.inr ⟨a, _, c, rfl, hd, hc, hw, hx⟩)))

end Sys2Proof.Machine
end

