-- ==== Sys2Proof/Tests/Slice0.lean ====
section
/-! SUPPORT. The model's own tests: the WellFormed smoke, decoding of words written out from the spec's encodings, at most
two one-step tests an instruction, and for every obligation with hypotheses a state and operands that meet them. Expected
values are those of spec/95_test_vectors.md (V-..., P...) and of the examples in the rules. -/

open Sys2Proof Sys2Proof.Machine

namespace Sys2Proof.Tests

/-! ### Well-formedness -/

/-- R74: a count above 4 is ill-formed, 4 is not. -/
theorem test_wf_absorb_five : Instr.wf (.absorb 5) = false := by decide
theorem test_wf_absorb_seven : Instr.wf (.absorb 7) = false := by decide
theorem test_wf_absorb_four : WellFormed (.absorb 4) := by decide
theorem test_wf_command_five : Command.wf (.absorb 5) = false := by decide
theorem test_wf_command_four : Command.wf (.absorb 4) = true := by decide

/-! ### Decoding: descriptors as R71 lays them out (W, then OFF), command words as R72 does (RSV, N, OP) -/

theorem test_decode_rdId : decode (.formB 0b0_000000#7 0) = .ok .rdId := by decide
theorem test_decode_rdStatus : decode (.formB 0b0_000100#7 0) = .ok .rdStatus := by decide
theorem test_decode_rdCmd : decode (.formB 0b0_001000#7 0) = .ok .rdCmd := by decide
theorem test_decode_rdData : decode (.formB 0b0_001100#7 0) = .ok .rdData := by decide
theorem test_decode_rdCountLo : decode (.formB 0b0_010000#7 0) = .ok .rdCountLo := by decide
theorem test_decode_rdCountHi : decode (.formB 0b0_010100#7 0) = .ok .rdCountHi := by decide
theorem test_decode_rdDigest1 : decode (.formB 0b0_100100#7 0) = .ok (.rdDigest 1) := by decide
theorem test_decode_rdDigest2 : decode (.formB 0b0_101000#7 0) = .ok (.rdDigest 2) := by decide
theorem test_decode_wrData : decode (.formB 0b1_001100#7 0x00636261) = .ok (.wrData 0x00636261) := by decide
theorem test_decode_wrCmd : decode (.formB 0b1_001000#7 0x00000042) = .ok (.wrCmd 0x00000042) := by decide
theorem test_decode_nop : decode (.formC 0b0000000000000000000000000_000_0000#32) = .ok .nop := by decide
theorem test_decode_init : decode (.formC 0b0000000000000000000000000_000_0001#32) = .ok .init := by decide
theorem test_decode_absorb1 : decode (.formC 0b0000000000000000000000000_001_0010#32) = .ok (.absorb 1) := by decide
theorem test_decode_absorb4 : decode (.formC 0b0000000000000000000000000_100_0010#32) = .ok (.absorb 4) := by decide
theorem test_decode_final : decode (.formC 0b0000000000000000000000000_000_0011#32) = .ok .final := by decide
theorem test_decode_clrerr : decode (.formC 0b0000000000000000000000000_000_0100#32) = .ok .clrerr := by decide

/-- V-L2-57, 59, 61, 64, 65: reserved and illegal words, each rejected by its name. -/
theorem test_reject_words :
    decode (.formC 0x00000005) = .error (.illegalCommand .reservedOp) ∧
    decode (.formC 0x00000052) = .error (.illegalCommand .countTooLarge) ∧
    decode (.formC 0x00000013) = .error (.illegalCommand .countNotZero) ∧
    decode (.formC 0x00000082) = .error (.illegalCommand .reservedBits) ∧
    decode (.formC 0x80000001) = .error (.illegalCommand .reservedBits) := by decide

/-- V-L2-82, 87, 91, 90: reserved, read-only and misaligned descriptors. -/
theorem test_reject_descriptors :
    decode (.formB 0x18 0) = .error (.busError .reservedOffset) ∧
    decode (.formB 0x44 0) = .error (.busError .readOnly) ∧
    decode (.formB 0x02 0) = .error (.busError .misaligned) ∧
    decode (.formB 0x58 0) = .error (.busError .reservedOffset) := by decide

/-- R71: the descriptor of `rd DIGEST3` has 7 bits in the table's numbering; a 40-bit form does not exist. -/
theorem test_tableWord : decodeTableWord 8 0x2C = some (.rdDigest 3) ∧ decodeTableWord 8 0x80 = none ∧
    decodeTableWord 40 0 = none := by decide

/-! ### The compression -/

/-- V-L2-1. -/
theorem test_round_functions :
    roundF 0x12345678 0x9ABCDEF0 0x0FEDCBA9 = 0x1FFDDFF1 ∧ roundG 0x12345678 0x9ABCDEF0 0x0FEDCBA9 = 0x92345678 ∧
    roundH 0x12345678 0x9ABCDEF0 0x0FEDCBA9 = 0x87654321 ∧ roundI 0x12345678 0x9ABCDEF0 0x0FEDCBA9 = 0x688AA88E := by
  decide

/-- V-L2-10, 11, 13, 14. -/
theorem test_rotl32 :
    rotl32 0x12345678 4 = 0x23456781 ∧ rotl32 0x80000001 1 = 0x00000003 ∧ rotl32 0x00000001 31 = 0x80000000 ∧
    rotl32 0xDEADBEEF 7 = 0x56DF77EF := by decide

set_option maxRecDepth 10000 in
/-- V-L2-22: the compression of 64 zero bytes. -/
theorem test_compress_zero_block : compress iv zeroBlock = ⟨0x031F1DAC, 0x6EA58ED0, 0x1FAB67B7, 0x74317791⟩ := by decide

/-- V-L2-31, R53: the first message word of the padded block of "abc". -/
theorem test_messageWord : messageWord (blockAt [0x61, 0x62, 0x63, 0x80] 0) 0 = 0x80636261 := by decide

/-- V-L2-36, 37, 38: the zeros of the padding at levels 55, 56 and 57. -/
theorem test_padZeros : padZeros 55 = 0 ∧ padZeros 56 = 63 ∧ padZeros 57 = 62 := by decide

/-- V-L2-41: the length field of 65 bytes. -/
theorem test_lengthField : le64bytes (bitLength 65) = [0x08, 0x02, 0x00, 0x00, 0x00, 0x00, 0x00, 0x00] := by decide

/-- V-L2-150: the digest of "test", low byte of each word first, high nibble first. -/
theorem test_hex :
    hexRender (digestBytes ⟨0xCD6B8F09, 0x73D32146, 0x834EDECA, 0xF6B42726⟩) = "098F6BCD4621D373CADE4E832627B4F6".toList := by
  decide

/-! ### One step -/

/-- The bus's answer to a read of this descriptor. -/
def answerTo (s : State) (d : Nat) : Option BusResponse := answerOf (step (s.withFetchWord 8 d))

/-- The state after a write of this command word. -/
def afterWord (s : State) (w : Nat) : Option State := nextState (step (s.withFetchWord 32 w))

/-- A context that holds these message bytes (fewer than 64). -/
def holding (m : List Byte) : State :=
  { State.reset with buf := blockAt m 0, level := BitVec.ofNat 6 m.length, count := BitVec.ofNat 64 m.length }

/-- A finished context with both error flags set (P5 after line 7). -/
def finished : State :=
  { State.reset with st := ⟨0xCD6B8F09, 0x73D32146, 0x834EDECA, 0xF6B42726⟩, count := 4, done := true, errCmd := true,
                     errSeq := true, data := 0x74736574 }

/-- V-L2-80. -/
theorem test_rdId : answerTo State.reset 0x00 = some (.data 0x4D443501) := by decide
/-- P5 line 8. -/
theorem test_rdStatus_flags : answerTo finished 0x04 = some (.data 0x00030001) := by decide
/-- V-L2-103. -/
theorem test_rdStatus_level : answerTo (holding (List.replicate 63 0x78)) 0x04 = some (.data 0x00003F00) := by decide
/-- V-L2-81. -/
theorem test_rdCmd : answerTo finished 0x08 = some (.data 0x00000000) := by decide
/-- P2 line 13. -/
theorem test_rdData : answerTo finished 0x0C = some (.data 0x74736574) := by decide
/-- R95, R37. -/
theorem test_rdCountLo : answerTo { State.reset with count := 0x0123456789ABCDEF } 0x10 = some (.data 0x89ABCDEF) := by decide
/-- R96, R37. -/
theorem test_rdCountHi : answerTo { State.reset with count := 0x0123456789ABCDEF } 0x14 = some (.data 0x01234567) := by decide
/-- P2 lines 8, 11. -/
theorem test_rdDigest0 : answerTo finished 0x20 = some (.data 0xCD6B8F09) := by decide
theorem test_rdDigest3 : answerTo finished 0x2C = some (.data 0xF6B42726) := by decide
/-- R98: staged, not absorbed. -/
theorem test_wrData :
    (nextState (step (postNext (.access (regWrite 0x0C 0x00636261)) State.reset))).map (fun t => (t.data, t.level)) =
      some (0x00636261, 0) := by decide
/-- V-L2-59: an illegal word after FINAL is ERR_CMD alone. -/
theorem test_wrCmd_priority :
    (afterWord { State.reset with done := true } 0x52).map statusWord = some 0x00010001 := by decide
/-- P2 lines 3 and 4. -/
theorem test_wrCmd_absorb :
    (afterWord { State.reset with data := 0x74736574 } 0x42).map statusWord = some 0x00000400 := by decide
/-- V-L2-70. -/
theorem test_nop : (afterWord finished 0x00).map statusWord = some 0x00030001 := by decide
/-- P5 line 14, and the chaining words of R101. -/
theorem test_init_status : (afterWord finished 0x01).map statusWord = some 0x00030000 := by decide
theorem test_init_digest : (afterWord finished 0x01).map (fun t => (t.st.a, t.count, t.data)) =
    some (0x67452301, 0, 0x74736574) := by decide
/-- R102's example: level 62, four bytes across the boundary. -/
theorem test_absorb_across :
    (nextState (exec (.absorb 4) { State.reset with level := 62, count := 62, data := 0x44332211 })).map
      (fun t => (t.level, t.count, t.buf[0], t.buf[1], t.buf[2])) = some (2, 66, 0x33, 0x44, 0x00) := by decide
/-- V-L2-67: `absorb 0` after FINAL. -/
theorem test_absorb_refused : (afterWord { State.reset with done := true } 0x02).map statusWord = some 0x00020001 := by decide
set_option maxRecDepth 10000 in
/-- P2 line 6 (V-L1-2). -/
theorem test_final_test : (afterWord (holding [0x74, 0x65, 0x73, 0x74]) 0x03).map (·.st) =
    some ⟨0xCD6B8F09, 0x73D32146, 0x834EDECA, 0xF6B42726⟩ := by decide
set_option maxRecDepth 10000 in
/-- V-L2-37: 56 bytes `78`, two blocks. -/
theorem test_final_two_blocks : (afterWord (holding (List.replicate 56 0x78)) 0x03).map (fun t => digestBytes t.st) =
    some [0x66, 0x8A, 0x72, 0xD5, 0xBA, 0x17, 0xF0, 0x8E, 0x62, 0xDA, 0xBC, 0xAF, 0xAD, 0x6D, 0xB1, 0x4B] := by decide
/-- R106's example. -/
theorem test_clrerr : (afterWord finished 0x04).map statusWord = some 0x00000001 := by decide
/-- R170. -/
theorem test_reset : nextState (step (postNext .reset finished)) = some State.reset := by decide
/-- R184. -/
theorem test_access_during_reset :
    refusalOf (step (postNext (.accessDuringReset (regRead 0x00)) State.reset)) = some .accessDuringReset := by decide
/-- V-L2-82, V-L2-92. -/
theorem test_bus_error_offset :
    faultOf (step (postNext (.access (regRead 0x18)) finished)) = some (.busErr .reservedOffset 0x18) ∧
    faultOf (step (postNext (.access (regWrite 0x0D 0)) finished)) = some (.busErr .misaligned 0x0D) := by decide
/-- V-L2-94: a 16-bit write of CMD decodes no command. -/
theorem test_bus_error_width :
    faultOf (step (postNext (.access { dir := .write, off := 0x08, width := 16, value := 5 }) State.reset)) =
      some (.busErr .badWidth 0x08) := by decide
/-- P5 line 11: the host sees the error and the core as it was. -/
theorem test_host_sees_bus_error :
    hostPerform (.access (regRead 0x18)) finished = some (.busErr 0x18 (some Config.busErrRdata), finished) := rfl

/-- R52, R55 (V-L2-150): the bytes of DIGEST0 of "test" from its address on, low byte first. -/
theorem test_bus_bytes :
    busBytes 0x20 0xCD6B8F09 = [(0x20, 0x09), (0x21, 0x8F), (0x22, 0x6B), (0x23, 0xCD)] := by decide
/-- P2: the bytes of "test" in address order are the word 0x74736574, in whatever order they are listed. -/
theorem test_word_from_bus :
    wordFromBus [(0x0F, 0x74), (0x0C, 0x74), (0x0D, 0x65), (0x0E, 0x73)] 0x0C = some 0x74736574 := by decide

/-! ### Witnesses: states and operands that meet the obligations' hypotheses, clause by clause -/

/-- A context that has held and lost a message differs from reset and agrees with it where InitForgetsHistory asks. -/
theorem witness_InitForgetsHistory :
    holding [0x61] ≠ State.reset ∧ (holding [0x61]).errCmd = State.reset.errCmd ∧
    (holding [0x61]).errSeq = State.reset.errSeq ∧ (holding [0x61]).data = State.reset.data ∧
    (holding [0x61]).pending = State.reset.pending := by decide

theorem witness_RdStatusReturnsTheFields : (ContextInv finished ∧ finished.done = true) ∧ NoErrors State.reset := by decide

theorem witness_RdDataReturnsTheStagedWord : State.reset.done = false := rfl

theorem witness_RdCountReturnsTheHalves : countHigh (0x0000000100000000 : BitVec 64) ≠ 0 := by decide

theorem witness_WrCmdPerformsTheCommandOfItsWord :
    (4 : BitVec 3).toNat ≤ 4 ∧ (0 : BitVec 3).toNat ≤ 4 ∧ legalCmd 0x00000005 = false := by decide

/-- Illegal words of each kind: OP 5, N 5, RSV, N on `final` (V-L2-57, 59, 64, 61). -/
theorem witness_IllegalWordRecordsErrCmd :
    legalCmd 0x00000005 = false ∧ legalCmd 0x00000052 = false ∧ legalCmd 0x00000082 = false ∧
    legalCmd 0x00000013 = false ∧ legalCmd 0xFFFFFFFF = false := by decide

/-- No bytes at level 63, four at 59, three at 60. -/
theorem witness_AbsorbInsideABlock :
    ∀ p ∈ [((63 : BitVec 6), (0 : BitVec 3)), (59, 4), (60, 3), (0, 4)],
      { State.reset with level := p.1 }.done = false ∧ p.2.toNat ≤ 4 ∧
        { State.reset with level := p.1 }.level.toNat + p.2.toNat < 64 := by simp [State.reset]

/-- The byte that fills the block is the last, the second or the first. -/
theorem witness_AbsorbAcrossABlock :
    ∀ p ∈ [((60 : BitVec 6), (4 : BitVec 3)), (62, 4), (63, 1), (63, 4)],
      { State.reset with level := p.1 }.done = false ∧ p.2.toNat ≤ 4 ∧
        64 ≤ { State.reset with level := p.1 }.level.toNat + p.2.toNat := by simp [State.reset]

theorem witness_FinalPadsIntoOneBlock :
    (holding (List.replicate 55 0x78)).done = false ∧ (holding (List.replicate 55 0x78)).level.toNat ≤ 55 ∧
    State.reset.level.toNat ≤ 55 := by decide

theorem witness_FinalPadsIntoTwoBlocks :
    (holding (List.replicate 56 0x78)).done = false ∧ 56 ≤ (holding (List.replicate 56 0x78)).level.toNat ∧
    56 ≤ (holding (List.replicate 63 0x78)).level.toNat := by decide

theorem witness_PadCompletesTheBlock : (holding [0x61]).done = false := rfl

theorem witness_UpdateAfterFinalRecordsErrSeq :
    finished.done = true ∧ (0 : BitVec 3).toNat ≤ 4 ∧ (4 : BitVec 3).toNat ≤ 4 := by decide

theorem witness_AbsorbOutOfRangeRecordsErrCmd : 5 ≤ (5 : BitVec 3).toNat ∧ 5 ≤ (7 : BitVec 3).toNat := by decide

/-- Bad width on either side of 32, misaligned, read-only and reserved accesses, reads and writes. -/
theorem witness_IllegalAccessIsABusError :
    ∀ a ∈ [(⟨.read, 0x0C, 8, 0⟩ : BusAccess), ⟨.write, 0x08, 16, 1⟩, ⟨.read, 0x20, 64, 0⟩, ⟨.read, 0x02, 32, 0⟩,
      ⟨.write, 0x0D, 32, 0⟩, ⟨.write, 0x04, 32, 0⟩, ⟨.read, 0x18, 32, 0⟩, ⟨.read, 0x3C, 32, 0⟩, ⟨.write, 0x18, 32, 0⟩],
      legal a.dir a.off a.width = false := by decide

theorem witness_LaterAccessesGoOnAfterABusError : legal .read 0x18 32 = false ∧ legal .write 0x04 32 = false := by decide

theorem witness_ErrorsHaveOnePriority :
    legal .write 0x08 16 = false ∧ legalCmd 0x00000052 = false ∧
    (legalCmd 0x00000042 = true ∧ legalCmd 0x00000003 = true ∧ legalCmd 0x00000000 = true) ∧ finished.done = true := by
  decide

/-- A step from a state with both flags set: `nop` keeps them. -/
theorem witness_ErrorFlagsAreStickyAndBlockNothing :
    ∃ t, step (postNext (.access (regWrite 0x08 0)) finished) = .next t ∧ finished.errCmd = true ∧
      finished.errSeq = true := ⟨_, rfl, rfl, rfl⟩

theorem witness_EveryInstructionCompletes :
    WellFormed (.absorb 4) ∧ WellFormed (.wrCmd 0x00000005) ∧ WellFormed (.wrCmd 0x00000042) ∧
    legalCmd 0x00000042 = true ∧ State.reset.done = false ∧ finished.done = true ∧ WellFormed .clrerr := by decide

/-- Steps that set ERR_CMD and ERR_SEQ. -/
theorem witness_ErrorFlagsAreSetOnlyByErrors :
    (∃ t, step (postNext (.access (regWrite 0x08 5)) State.reset) = .next t ∧ t.errCmd = true) ∧
    (∃ t, step (postNext (.access (regWrite 0x08 3)) { State.reset with done := true }) = .next t ∧ t.errSeq = true) :=
  ⟨⟨_, rfl, rfl⟩, ⟨_, rfl, rfl⟩⟩

/-- A `final` issued to an open context runs. -/
theorem step_final_open (s : State) (hd : s.done = false) :
    step (postNext (.access (regWrite 0x08 3)) s) = .next (respond .ok (finish s)) := execFinal_open hd

/-- Steps that set and clear DONE. -/
theorem witness_DoneIsSetByFinalAndClearedByInit :
    (∃ t, step (postNext (.access (regWrite 0x08 3)) State.reset) = .next t ∧ t.done = true) ∧
    (∃ t, step (postNext (.access (regWrite 0x08 1)) finished) = .next t ∧ t.done = false) :=
  ⟨⟨_, step_final_open State.reset rfl, rfl⟩, ⟨_, rfl, rfl⟩⟩

/-- Steps by `wr DATA`, by reset, and by an access that writes nothing. -/
theorem witness_ContextIsWrittenOnlyByItsCommands :
    (∃ t, step (postNext (.access (regWrite 0x0C 7)) finished) = .next t) ∧
    (∃ t, step (postNext .reset finished) = .next t) ∧
    (∃ t, step (postNext (.access (regRead 0x20)) finished) = .next t) := ⟨⟨_, rfl⟩, ⟨_, rfl⟩, ⟨_, rfl⟩⟩

theorem witness_ReadsHaveNoSideEffect :
    (regRead 0x00).dir = .read ∧ legal (regRead 0x00).dir (regRead 0x00).off (regRead 0x00).width = true ∧
    legal (regRead 0x2C).dir (regRead 0x2C).off (regRead 0x2C).width = true := by decide

/-- Three equal low lanes, the fourth different (V-L2-144). -/
theorem witness_AbsorbIgnoresTheHighLanes :
    ∀ k, k < (3 : BitVec 3).toNat →
      (0xFF636261 : Word).extractLsb' (8 * k) 8 = { State.reset with data := 0x00636261 }.data.extractLsb' (8 * k) 8 := by
  decide

theorem witness_BufferContentsAreHidden :
    (∀ n, ¬ EventIssues .reset (.absorb n)) ∧ ¬ EventIssues .reset .final ∧
    ∃ t, step (postNext .reset finished) = .next t :=
  by
  refine ⟨?_, ?_, ⟨_, rfl⟩⟩
  · rintro n ⟨a, w, h, -⟩
    cases h
  · rintro ⟨a, w, h, -⟩
    cases h

theorem base_inWindow (i : Nat) : inWindow i (Config.instanceBase i) = true := by simp [inWindow]

theorem base_zero_not_inWindow_one : inWindow 1 (Config.instanceBase 0) = false := by
  simp [inWindow, Config.instanceBase, Config.instancePage]
  omega

theorem witness_InstancesAreIndependent :
    (inWindow 3 (Config.instanceBase 3) = true) ∧
    (∃ r q, platformAccess .read Config.md5Base 32 0 [State.reset] = some (r, q)) ∧
    inWindow 1 (Config.instanceBase 0) = false ∧
    (∃ r q, platformEvent 0 .reset [finished, finished] = some (r, q)) := by
  refine ⟨base_inWindow 3, ?_, base_zero_not_inWindow_one, ⟨_, _, rfl⟩⟩
  have h : ownerOf [State.reset].length Config.md5Base = some 0 := by
    simp [ownerOf, List.range_succ, Config.md5Base, base_inWindow]
  have o : offsetIn 0 Config.md5Base = 0 := by simp [offsetIn, Config.md5Base]
  simp only [platformAccess, h, accessAt, o]
  exact ⟨_, _, rfl⟩

/-- The second of two instances, its first and last legal read, and a write of DATA from bytes. -/
theorem witness_BusLanesStandAtRisingAddresses :
    [State.reset, finished][1]? = some finished ∧ legal .read 0x00 32 = true ∧ legal .read 0x2C 32 = true ∧
    ∀ k : Fin 4, byteAt (busBytes (Config.instanceBase 1 + 0x0C) 0x74736574) (Config.instanceBase 1 + 0x0C + k.val) =
      some ((0x74736574 : Word).extractLsb' (8 * k.val) 8) := by
  refine ⟨rfl, by decide, by decide, fun k => ?_⟩
  fin_cases k <;> simp [busBytes_eq, byteAt, lane]

theorem witness_DecodeOfEncode : ∀ i ∈ [Instr.absorb 0, .absorb 4, .rdDigest 3, .wrData 0xFFFFFFFF, .wrCmd 0xFFFFFFFF],
    WellFormed i := by decide

theorem witness_EncodeOfDecode :
    decodeCommand 0x00000042 = .ok (.absorb 4) ∧ decodeDescriptor 0x2C 9 = .ok (.rdDigest 3) ∧
    decodeDescriptor 0x4C 9 = .ok (.wrData 9) := by decide

theorem witness_StepRunsTheDecodedInstruction :
    (postNext (.access (regRead 0x00)) State.reset).pending = .access (regRead 0x00) :: [] ∧
    decodeAccess (regRead 0x00) = .ok .rdId ∧ State.reset.pending = [] := by decide

theorem witness_StepConsumesOneEvent :
    ∃ t, (postNext .reset finished).pending = .reset :: [] ∧ step (postNext .reset finished) = .next t := ⟨_, rfl, rfl⟩

theorem witness_IssuedProgramRunsInOrder : ∀ i ∈ [Instr.init, .wrData 0x74736574, .absorb 4, .final, .rdDigest 0],
    WellFormed i := by decide

theorem witness_StepKeepsTheContextInvariant :
    ContextInv (holding [0x61]) ∧ ContextInv finished ∧
    (∃ t, step (postNext (.access (regWrite 0x08 0x12)) (holding [0x61])) = .next t) := by
  refine ⟨by decide, by decide, ?_⟩
  exact ⟨_, rfl⟩

/-- An open context and a finished one; `absorb`, `init`, `final` and a read as the event. -/
theorem witness_StepKeepsTheHeldMessage :
    HoldsMessage State.reset [] ∧ HoldsMessage { State.reset with done := true, st := md5Words [] } [] ∧
    EventIssues (.access (regWrite 0x08 0x42)) (.absorb 4) ∧ EventIssues (.access (regWrite 0x08 1)) .init ∧
    EventIssues (.access (regWrite 0x08 3)) .final ∧
    (∃ t, step (postNext (.access (regWrite 0x08 3)) State.reset) = .next t) ∧
    (∀ n, ¬ EventIssues (.access (regRead 0x20)) (.absorb n)) ∧ ¬ EventIssues (.access (regRead 0x20)) .init := by
  refine ⟨⟨by decide, fun _ => by decide, by decide⟩, ⟨rfl, by simp, fun _ => ⟨rfl, rfl, rfl⟩⟩,
    ⟨_, _, rfl, rfl, rfl⟩, ⟨_, _, rfl, rfl, rfl⟩, ⟨_, _, rfl, rfl, rfl⟩,
    ⟨_, step_final_open State.reset rfl⟩, ?_, ?_⟩
  · rintro n ⟨a, w, ⟨⟩, h, -⟩
    cases h
  · rintro ⟨a, w, ⟨⟩, h, -⟩
    cases h

theorem witness_StreamingIsTransparent :
    ∀ p ∈ [((0x00636261 : Word), (3 : BitVec 3)), (0, 0), (0x64636261, 4)], p.2.toNat ≤ 4 := by simp

theorem witness_RoundFunctionsFollowTheTruthTable : 0 < 32 ∧ 31 < 32 := by decide

theorem witness_RotationMovesBitsLeft : 1 ≤ 1 ∧ 1 ≤ 31 ∧ 31 ≤ 31 ∧ 0 < 32 ∧ 31 < 32 := by decide

theorem witness_LengthFieldIsLittleEndian :
    ∀ k : Fin 8, some ((blockAt (List.replicate 56 0 ++ le64bytes 0x20) 0)[56 + k.val]) = (le64bytes 0x20)[k.val]? := by
  decide

theorem witness_HexRendersHighNibbleFirst : ([0x09, 0x8F] : List Byte)[1]? = some 0x8F := rfl

end Sys2Proof.Tests
end

section
/-! The message words of a block (R53). -/

namespace Sys2Proof.Machine

/-- Settles O54: a message word is the `le32` of its four bytes (R53), whose value is `le32_toNat` (R10). -/
theorem messageWordsAreLittleEndian : Obligations.MessageWordsAreLittleEndian := by
  intro b j
  rw [messageWord, le32_toNat]

end Sys2Proof.Machine
end

section
/-! The legal command words (R75): their fields, the nine words they are (R73), and their decoding. -/

namespace Sys2Proof

/-! ### The fields of a command word -/

/-- A command word is its three fields in a row (R72). -/
theorem fields_append_eq_word (w : Word) : rsvField w ++ countField w ++ opField w = w := by
  ext k hk
  simp only [rsvField, countField, opField, BitVec.getElem_append, BitVec.getElem_extractLsb']
  split
  · simp [BitVec.getLsbD_eq_getElem hk]
  · split <;> rw [← BitVec.getLsbD_eq_getElem hk] <;> congr 1 <;> omega

theorem legalCmd_iff_fields (w : Word) :
    legalCmd w = true ↔
      rsvField w = 0 ∧
        ((opField w ∈ [(0x0 : BitVec 4), 0x1, 0x3, 0x4] ∧ countField w = 0) ∨
          (opField w = 0x2 ∧ (countField w).toNat ≤ 4)) := by
  simp [legalCmd, or_assoc]

/-! ### The nine words -/

/-- The words of R73, in its order. -/
def listedCommandWords : List Word :=
  [0x00000000, 0x00000001, 0x00000002, 0x00000012, 0x00000022, 0x00000032, 0x00000042, 0x00000003, 0x00000004]

theorem legalCmd_of_mem_listed {w : Word} (h : w ∈ listedCommandWords) : legalCmd w = true := by
  have hall : listedCommandWords.all legalCmd = true := by decide
  exact List.all_eq_true.mp hall w h

theorem plain_mem_listed :
    ∀ op ∈ [(0x0 : BitVec 4), 0x1, 0x3, 0x4], (0 : BitVec 25) ++ (0 : BitVec 3) ++ op ∈ listedCommandWords := by
  decide

theorem absorb_mem_listed :
    ∀ n : BitVec 3, n.toNat ≤ 4 → (0 : BitVec 25) ++ n ++ (0x2 : BitVec 4) ∈ listedCommandWords := by
  decide

theorem mem_listed_of_legalCmd {w : Word} (h : legalCmd w = true) : w ∈ listedCommandWords := by
  obtain ⟨hrsv, ⟨hop, hcount⟩ | ⟨hop, hcount⟩⟩ := (legalCmd_iff_fields w).mp h
  · have hw := plain_mem_listed _ hop
    rwa [← hrsv, ← hcount, fields_append_eq_word] at hw
  · have hw := absorb_mem_listed _ hcount
    rwa [← hrsv, ← hop, fields_append_eq_word] at hw

/-! ### Decoding -/

/-- The branches of the decoder that answer a command test RSV, then OP, then N as OP demands. -/
theorem legalCmd_of_decodeCommand {w : Word} {c : Command} (h : decodeCommand w = .ok c) : legalCmd w = true := by
  rw [legalCmd_iff_fields]
  unfold decodeCommand at h
  split_ifs at h with hrsv habsorb hcount hnop hcount hinit hcount hfinal hcount hclrerr hcount
  · exact ⟨not_not.mp hrsv, .inr ⟨habsorb, of_decide_eq_true hcount⟩⟩
  · exact ⟨not_not.mp hrsv, .inl ⟨by simp [hnop], hcount⟩⟩
  · exact ⟨not_not.mp hrsv, .inl ⟨by simp [hinit], hcount⟩⟩
  · exact ⟨not_not.mp hrsv, .inl ⟨by simp [hfinal], hcount⟩⟩
  · exact ⟨not_not.mp hrsv, .inl ⟨by simp [hclrerr], hcount⟩⟩

theorem decodeCommand_of_legalCmd {w : Word} (h : legalCmd w = true) : ∃ c, decodeCommand w = .ok c := by
  obtain ⟨hrsv, ⟨hop, hcount⟩ | ⟨hop, hcount⟩⟩ := (legalCmd_iff_fields w).mp h
  · simp only [List.mem_cons, List.not_mem_nil, or_false] at hop
    obtain hop | hop | hop | hop := hop <;> simp [decodeCommand, hrsv, hop, hcount]
  · exact ⟨.absorb (countField w), by simp [decodeCommand, hrsv, hop, countInRange, hcount]⟩

/-- Settles O41: the predicate of R75 read field by field, the nine words its fields put together, and the decoder's test
of the same fields. -/
theorem nineCommandWordsAreLegal : Obligations.NineCommandWordsAreLegal := fun w =>
  ⟨⟨mem_listed_of_legalCmd, legalCmd_of_mem_listed⟩, legalCmd_iff_fields w,
    decodeCommand_of_legalCmd, fun ⟨_, h⟩ => legalCmd_of_decodeCommand h⟩

end Sys2Proof
end

section
/-! What the host's accesses and instructions answer: runs of instructions, accesses of CMD and of read-only registers, the
next state of every command, and the open context that `absorb` leaves (R90, R99 to R105). -/

namespace Sys2Proof.Machine

/-! ### Runs -/

theorem runInstrs_cons_next {i : Instr} {s t : State} (h : exec i s = .next t) (p : List Instr) :
    runInstrs (i :: p) s = runInstrs p t := by
  simp [runInstrs, h]

theorem runInstrs_append_next {p : List Instr} {s t : State} (h : runInstrs p s = .next t) (q : List Instr) :
    runInstrs (p ++ q) s = runInstrs q t := by
  induction p generalizing s with
  | nil =>
    rw [next_inj h]
    rfl
  | cons i p ih =>
    cases hi : exec i s with
    | next u =>
      rw [List.cons_append, runInstrs_cons_next hi]
      exact ih (by rwa [runInstrs_cons_next hi] at h)
    | fault f => simp [runInstrs, hi] at h
    | refused r => simp [runInstrs, hi] at h

theorem runInstrs_singleton_next {i : Instr} {s t : State} (h : exec i s = .next t) : runInstrs [i] s = .next t :=
  runInstrs_cons_next h []

theorem exec_init_next (s : State) : exec .init s = .next (respond .ok (initContext s)) := rfl

theorem exec_wrData_next (v : Word) (s : State) : exec (.wrData v) s = .next (respond .ok (storeData v s)) := rfl

/-! ### Accesses -/

/-- A 32-bit access is decoded by its descriptor (R71). -/
theorem decodeAccess_eq {dir : Dir} {off : BitVec 6} {d : BitVec 7} (h : descriptorOf dir off = d) (v : Word) :
    decodeAccess { dir := dir, off := off, width := 32, value := v } = decodeDescriptor d v := by
  simp [decodeAccess, h]

/-- A write of CMD is the instruction `wr CMD` (R73). -/
theorem step_regWrite_cmd (w : Word) (s : State) :
    step (postNext (.access (regWrite 0x08 w)) s) = exec (.wrCmd w) s := by
  have h : decodeAccess (regWrite 0x08 w) = .ok (.wrCmd w) := decodeAccess_eq (d := 0x48) (by decide) w
  rw [step_postNext, performEvent, h]

/-- The value a write carries has no part in what the decoder rejects (R71). -/
theorem decodeDescriptor_error_of_zero {d : BitVec 7} {r : BusErrReason} (h : decodeDescriptor d 0 = .error r)
    (v : Word) : decodeDescriptor d v = .error r := by
  by_cases hdata : d = 0x4C
  · subst hdata
    cases h
  · by_cases hcmd : d = 0x48
    · subst hcmd
      cases h
    · simpa only [decodeDescriptor, if_neg hdata, if_neg hcmd] using h

theorem decodeDescriptor_write_readOnly :
    ∀ off ∈ mappedOffsets, off ∉ writableOffsets → decodeDescriptor (descriptorOf .write off) 0 = .error .readOnly := by
  decide

/-- A write of a register that is not writable is BUS_ERR (R76, R151). -/
theorem step_regWrite_readOnly {off : BitVec 6} (hmapped : off ∈ mappedOffsets) (hread : off ∉ writableOffsets)
    (v : Word) (s : State) : step (postNext (.access (regWrite off v)) s) = .fault (.busErr .readOnly off) := by
  have h : decodeAccess (regWrite off v) = .error .readOnly :=
    (decodeAccess_eq rfl v).trans (decodeDescriptor_error_of_zero (decodeDescriptor_write_readOnly off hmapped hread) v)
  rw [step_postNext, performEvent, h]
  rfl

/-! ### Every command answers a next state -/

theorem exec_absorb_keeps_data (n : BitVec 3) (s : State) : ∃ t, exec (.absorb n) s = .next t ∧ t.data = s.data := by
  cases hn : countInRange n with
  | false => exact ⟨_, execAbsorb_out hn s, by simp⟩
  | true =>
    cases hd : s.done with
    | true => exact ⟨_, execAbsorb_done hn hd, by simp⟩
    | false =>
      obtain ⟨-, -, -, hdata, -, -⟩ := absorbBytes_frame (lanes s.data n.toNat) s
      exact ⟨_, execAbsorb_open hn hd, by simp [hdata]⟩

/-- The padding is appended and not counted (R104). -/
theorem exec_final_keeps_count (s : State) : ∃ t, exec .final s = .next t ∧ t.count = s.count := by
  cases hd : s.done with
  | true => exact ⟨_, execFinal_done hd, by simp⟩
  | false =>
    obtain ⟨hcount, -⟩ := pushBytes_frame (pad s.level (bitLength s.count)) s
    exact ⟨_, execFinal_open hd, by simp [finish, hcount]⟩

theorem exec_command_next (c : Command) (s : State) : ∃ t, exec c.toInstr s = .next t := by
  cases c with
  | nop => exact ⟨_, rfl⟩
  | init => exact ⟨_, rfl⟩
  | clrerr => exact ⟨_, rfl⟩
  | absorb n =>
    obtain ⟨t, ht, -⟩ := exec_absorb_keeps_data n s
    exact ⟨t, ht⟩
  | final =>
    obtain ⟨t, ht, -⟩ := exec_final_keeps_count s
    exact ⟨t, ht⟩

/-! ### The word of a `wr CMD` -/

theorem exec_wrCmd_of_decode {w : Word} {c : Command} (h : decodeCommand w = .ok c) (s : State) :
    exec (.wrCmd w) s = exec c.toInstr s := by
  simp only [exec, execWrCmd, h]
  cases c <;> rfl

theorem step_regWrite_cmd_of_decode {w : Word} {c : Command} (h : decodeCommand w = .ok c) (s : State) :
    step (postNext (.access (regWrite 0x08 w)) s) = exec c.toInstr s := by
  rw [step_regWrite_cmd, exec_wrCmd_of_decode h]

/-- An illegal word decodes to no command, so it records ERR_CMD (R152). -/
theorem exec_wrCmd_illegal {w : Word} (h : legalCmd w = false) (s : State) :
    exec (.wrCmd w) s = .next (respond .ok (recordErrCmd s)) := by
  cases hc : decodeCommand w with
  | error r => exact execWrCmd_error hc s
  | ok c => rw [legalCmd_of_decodeCommand hc] at h; cases h

/-- The word of `absorb N` (R73), its N written as `16 N`. -/
theorem decodeCommand_absorb_word :
    ∀ n : BitVec 3, n.toNat ≤ 4 → decodeCommand (0x00000002 + n.setWidth 32 * 16) = .ok (.absorb n) := by
  decide

/-! ### What `absorb` and `final` leave of an open context -/

/-- The level counts the message bytes modulo 64 (R24). -/
theorem absorbBytes_level (xs : List Byte) (s : State) :
    (absorbBytes xs s).level = s.level + BitVec.ofNat 6 xs.length := by
  induction xs generalizing s with
  | nil => simp
  | cons x xs ih => simp [ih, BitVec.ofNat_add, BitVec.add_assoc, BitVec.add_comm 1#6]

/-- `absorb N` of an open context counts N bytes and records no error (R102). -/
theorem exec_absorb_open_fields {n : BitVec 3} {s : State} (hn : countInRange n = true) (hd : s.done = false) :
    ∃ t, exec (.absorb n) s = .next t ∧ t.done = false ∧ t.level = s.level + BitVec.ofNat 6 n.toNat ∧
      t.count = s.count + BitVec.ofNat 64 n.toNat ∧ t.errCmd = s.errCmd ∧ t.errSeq = s.errSeq := by
  obtain ⟨hdone, hcmd, hseq, -⟩ := absorbBytes_frame (lanes s.data n.toNat) s
  exact ⟨_, execAbsorb_open hn hd, by simp [hdone, hd], by simp [absorbBytes_level], by simp [absorbBytes_count],
    by simp [hcmd], by simp [hseq]⟩

/-- Repeated `absorb N` of an open context counts N bytes each time (R102). -/
theorem runInstrs_replicate_absorb {n : BitVec 3} (hn : countInRange n = true) (k : Nat) {s : State}
    (hd : s.done = false) :
    ∃ t, runInstrs (List.replicate k (.absorb n)) s = .next t ∧ t.done = false ∧
      t.count = s.count + BitVec.ofNat 64 (k * n.toNat) := by
  induction k generalizing s with
  | zero => exact ⟨s, rfl, hd, by simp⟩
  | succ k ih =>
    obtain ⟨u, hu, hud, -, huc, -⟩ := exec_absorb_open_fields hn hd
    obtain ⟨t, ht, htd, htc⟩ := ih hud
    refine ⟨t, ?_, htd, ?_⟩
    · rw [List.replicate_succ, runInstrs_cons_next hu, ht]
    · rw [htc, huc, BitVec.add_assoc, ← BitVec.ofNat_add]
      congr 2
      ring

/-- FINAL appends the padding of the bytes held, so it folds the padded message (R104, R133). -/
theorem exec_final_of_buffers {s : State} {m : List Byte} (h : Buffers s m) (hc : s.count = BitVec.ofNat 64 m.length)
    (hd : s.done = false) : ∃ t, exec .final s = .next t ∧ t.st = md5Words m := by
  have hbits : bitLength s.count = BitVec.ofNat 64 (8 * m.length) := by
    rw [hc, bitLength, Nat.mul_comm, BitVec.ofNat_mul]
    rfl
  obtain ⟨hst, -, -⟩ := h.pushAll (pad s.level (bitLength s.count))
  obtain ⟨-, hlevel, -⟩ := h
  refine ⟨respond .ok (finish s), execFinal_open hd, ?_⟩
  rw [respond_st, finish, setDone_st, hst, hlevel, hbits]
  rfl

/-- INIT looks at nothing it writes (R101). -/
theorem initContext_respond_initContext (s : State) (r : BusResponse) :
    initContext (respond r (initContext s)) = respond r (initContext s) := rfl

end Sys2Proof.Machine
end

section
/-! The register reads (R91 to R97): the fields of STATUS, the halves of COUNT, the words of DIGEST. -/

namespace Sys2Proof.Machine

/-! ### ID and CMD -/

/-- Settles O6: the constant is the model's `idValue`, and ID is among the read-only registers. -/
theorem rdIdReturnsTheConstant : Obligations.RdIdReturnsTheConstant :=
  ⟨fun _ => rfl, decodeAccess_eq (d := 0x00) (by decide), fun s v => step_regWrite_readOnly (by decide) (by decide) v s⟩

/-- Settles O8: CMD has no storage, and its read answers the literal 0. -/
theorem rdCmdReturnsZero : Obligations.RdCmdReturnsZero := ⟨fun _ => rfl, decodeAccess_eq (d := 0x08) (by decide)⟩

/-! ### STATUS -/

theorem flagWord_getLsbD (b : Bool) (i : Nat) : (flagWord b).getLsbD i = (decide (i = 0) && b) := by
  by_cases hi : i = 0 <;> simp [flagWord, hi]

/-- Each bit of the STATUS word is of one field at most (R34). -/
theorem statusWord_getLsbD (s : State) {i : Nat} (hi : i < 32) :
    (statusWord s).getLsbD i =
      (decide (i = 0) && s.done || decide (8 ≤ i) && s.level.getLsbD (i - 8) || decide (i = 16) && s.errCmd ||
        decide (i = 17) && s.errSeq) := by
  have hshift : ∀ k, (!decide (i < k) && decide (i - k = 0)) = decide (i = k) := by
    intro k
    rw [← decide_not, ← Bool.decide_and, decide_eq_decide]
    omega
  simp only [statusWord, BitVec.getLsbD_or, BitVec.getLsbD_shiftLeft, BitVec.getLsbD_setWidth, flagWord_getLsbD,
    ← hshift 16, ← hshift 17, hi, Nat.lt_of_le_of_lt (Nat.sub_le i 8) hi, decide_true, Bool.true_and, Bool.and_assoc,
    ← decide_not, Nat.not_lt]

/-- The fields of R34: which term of `statusWord_getLsbD` is left at a bit is arithmetic on the bit's number. -/
theorem statusWord_fields (s : State) :
    (statusWord s).extractLsb' 0 1 = BitVec.ofBool s.done ∧
    (statusWord s).extractLsb' 1 7 = 0 ∧
    (statusWord s).extractLsb' 8 6 = s.level ∧
    (statusWord s).extractLsb' 14 2 = 0 ∧
    (statusWord s).extractLsb' 16 1 = BitVec.ofBool s.errCmd ∧
    (statusWord s).extractLsb' 17 1 = BitVec.ofBool s.errSeq ∧
    (statusWord s).extractLsb' 18 14 = 0 := by
  refine ⟨?_, ?_, ?_, ?_, ?_, ?_, ?_⟩ <;> refine BitVec.eq_of_getElem_eq fun i hi => ?_ <;>
    rw [BitVec.getElem_extractLsb', statusWord_getLsbD _ (by omega)] <;>
    simp (disch := omega) only [decide_eq_false, decide_eq_true, BitVec.getLsbD_of_ge, Bool.false_and, Bool.true_and,
      Bool.or_false, Bool.false_or, Nat.add_sub_cancel_left, BitVec.getLsbD_eq_getElem, BitVec.getElem_ofBool,
      BitVec.ofNat_eq_ofNat, BitVec.getElem_zero]

/-- The example of R92: four bytes absorbed after `init` are LEVEL 4, and nothing else. -/
theorem rdStatus_after_four_bytes {s : State} (h : NoErrors s) :
    ∃ t : State, runInstrs [.init, .wrData 0x74736574, .absorb 4, .rdStatus] s = .next t ∧
      t.response = .data 0x00000400 := by
  obtain ⟨hcmd, hseq⟩ := h
  obtain ⟨t, ht, htd, htl, -, htcmd, htseq⟩ :=
    exec_absorb_open_fields (n := 4) (s := respond .ok (storeData 0x74736574 (respond .ok (initContext s)))) (by decide)
      (by simp)
  refine ⟨respond (.data (statusWord t)) t, ?_, ?_⟩
  · have hread : exec .rdStatus t = .next (respond (.data (statusWord t)) t) := rfl
    rw [runInstrs_cons_next (exec_init_next s), runInstrs_cons_next (exec_wrData_next _ _), runInstrs_cons_next ht,
      runInstrs_singleton_next hread]
  · rw [respond_response, statusWord, htd, htl, htcmd, htseq]
    simp [hcmd, hseq, flagWord]

/-- Settles O7: the fields are read back bit by bit (R34); LEVEL under DONE is the invariant of R30. -/
theorem rdStatusReturnsTheFields : Obligations.RdStatusReturnsTheFields := by
  refine ⟨fun s => ?_, decodeAccess_eq (d := 0x04) (by decide),
    fun s v => step_regWrite_readOnly (by decide) (by decide) v s, rfl, fun s h => rdStatus_after_four_bytes h⟩
  obtain ⟨hdone, hlow, hlevel, hmid, hcmd, hseq, hhigh⟩ := statusWord_fields s
  exact ⟨statusWord s, rfl, rfl, hdone, hlow, hlevel, hmid, hcmd, hseq, hhigh,
    fun ⟨_, _, hempty⟩ hd => hlevel.trans (hempty hd)⟩

/-! ### DATA -/

/-- The example of R94: a word staged and partly absorbed reads back whole. -/
theorem rdData_after_absorb (s : State) :
    ∃ t : State, runInstrs [.wrData 0x11223344, .absorb 2, .rdData] s = .next t ∧ t.response = .data 0x11223344 := by
  obtain ⟨t, ht, hdata⟩ := exec_absorb_keeps_data 2 (respond .ok (storeData 0x11223344 s))
  refine ⟨respond (.data t.data) t, ?_, by rw [respond_response, hdata, respond_data, storeData_data]⟩
  have hread : exec .rdData t = .next (respond (.data t.data) t) := rfl
  rw [runInstrs_cons_next (exec_wrData_next _ _), runInstrs_cons_next ht, runInstrs_singleton_next hread]

/-- Settles O9: ABSORB writes the context or one error flag, INIT the context, and reset every element. -/
theorem rdDataReturnsTheStagedWord : Obligations.RdDataReturnsTheStagedWord :=
  ⟨fun _ => rfl, decodeAccess_eq (d := 0x0C) (by decide), fun s n => exec_absorb_keeps_data n s,
    fun s => ⟨_, exec_init_next s, by simp⟩, fun s => ⟨_, rfl, by simp⟩, fun s _ => rdData_after_absorb s⟩

/-! ### COUNT -/

/-- The two slices of R37 meet at bit 32. -/
theorem countHigh_append_countLow (c : BitVec 64) : countHigh c ++ countLow c = c :=
  BitVec.extractLsb'_append_extractLsb'

theorem le_toNat_of_countHigh_ne_zero {c : BitVec 64} (h : countHigh c ≠ 0) : 2 ^ 32 ≤ c.toNat := by
  by_contra hlt
  apply h
  apply BitVec.eq_of_toNat_eq
  simp only [countHigh, BitVec.extractLsb'_toNat, Nat.shiftRight_eq_div_pow, BitVec.ofNat_eq_ofNat, BitVec.toNat_ofNat]
  omega

/-- The example of R96: INIT empties the counter. -/
theorem rdCountHi_after_init (s : State) :
    ∃ t : State, runInstrs [.init, .rdCountHi] s = .next t ∧ t.response = .data 0x00000000 := by
  refine ⟨respond (.data (countHigh 0)) (respond .ok (initContext s)), rfl, ?_⟩
  rw [respond_response]
  rfl

/-- The example of R95: 65 bytes after `init` are counted as 0x41. -/
theorem rdCountLo_after_65_bytes (s : State) :
    ∃ t : State, runInstrs (.init :: (List.replicate 16 (.absorb 4) ++ [.absorb 1, .rdCountLo])) s = .next t ∧
      t.response = .data 0x00000041 := by
  obtain ⟨u, hu, hud, huc⟩ :=
    runInstrs_replicate_absorb (n := 4) (by decide) 16 (s := respond .ok (initContext s)) (by simp)
  obtain ⟨t, ht, -, -, htc, -⟩ := exec_absorb_open_fields (n := 1) (by decide) hud
  have hcount : t.count = 65 := by rw [htc, huc]; simp
  refine ⟨respond (.data (countLow t.count)) t, ?_, ?_⟩
  · have hread : exec .rdCountLo t = .next (respond (.data (countLow t.count)) t) := rfl
    rw [runInstrs_cons_next (exec_init_next s), runInstrs_append_next hu, runInstrs_cons_next ht,
      runInstrs_singleton_next hread]
  · rw [respond_response, hcount]
    rfl

/-- Settles O10: two slices that meet make up the counter, and the padding is not counted. -/
theorem rdCountReturnsTheHalves : Obligations.RdCountReturnsTheHalves :=
  ⟨fun s => ⟨countLow s.count, countHigh s.count, rfl, rfl, countHigh_append_countLow _, le_toNat_of_countHigh_ne_zero⟩,
    decodeAccess_eq (d := 0x10) (by decide), decodeAccess_eq (d := 0x14) (by decide),
    exec_final_keeps_count, rdCountHi_after_init, rdCountLo_after_65_bytes⟩

/-! ### DIGEST -/

set_option maxRecDepth 10000 in
/-- V-L1-1: the first chaining word of MD5 of the empty message. -/
theorem md5Words_nil_a : (md5Words []).a = 0xD98C1DD4 := by decide

/-- The program that hashes the empty string is `init ; final`, which folds the padded empty message into IV (R80, R104). -/
theorem rdDigest0_after_hash_empty (s : State) :
    ∃ t : State, runInstrs [.init, .final, .rdDigest 0] s = .next t ∧ t.response = .data 0xD98C1DD4 := by
  obtain ⟨t, ht, hst⟩ := exec_final_of_buffers (s := respond .ok (initContext s)) (m := [])
    (.empty (by simp) (by simp) (by simp)) (by simp) (by simp)
  have hread : exec (.rdDigest 0) t = .next (respond (.data t.st.a) t) := rfl
  refine ⟨respond (.data t.st.a) t, ?_, ?_⟩
  · rw [runInstrs_cons_next (exec_init_next s), runInstrs_cons_next ht, runInstrs_singleton_next hread]
  · rw [respond_response, hst, md5Words_nil_a]

/-- Settles O11: the read selects the chaining word by OFF[3:2] and looks at nothing else. -/
theorem rdDigestReturnsTheChainingWord : Obligations.RdDigestReturnsTheChainingWord :=
  ⟨fun _ => ⟨rfl, rfl, rfl, rfl⟩,
    fun v => ⟨decodeAccess_eq (d := 0x20) (by decide) v, decodeAccess_eq (d := 0x24) (by decide) v,
      decodeAccess_eq (d := 0x28) (by decide) v, decodeAccess_eq (d := 0x2C) (by decide) v⟩,
    fun s v off hoff => step_regWrite_readOnly (by revert off; decide) (by revert off; decide) v s,
    rdDigest0_after_hash_empty⟩

end Sys2Proof.Machine
end

section
/-! The register writes and the commands that answer alike in every state (R98 to R101, R106). -/

namespace Sys2Proof.Machine

/-- Settles O13: the lanes of the example are the bytes its word is made of. -/
theorem wrDataStagesTheWord : Obligations.WrDataStagesTheWord :=
  ⟨fun _ _ => rfl, decodeAccess_eq (d := 0x4C) (by decide), fun _ => ⟨_, rfl, lanes_le32 0x61 0x62 0x63 0x00⟩⟩

/-- Settles O14: the word is decoded first, so a legal one runs its command and an illegal one records ERR_CMD. -/
theorem wrCmdPerformsTheCommandOfItsWord : Obligations.WrCmdPerformsTheCommandOfItsWord := by
  refine ⟨decodeAccess_eq (d := 0x48) (by decide), fun s => ⟨?_, ?_, fun n hn => ?_, ?_, ?_⟩,
    fun s w h => exec_wrCmd_illegal h s, fun s w => ?_⟩
  · exact exec_wrCmd_of_decode (c := .nop) (by decide) s
  · exact exec_wrCmd_of_decode (c := .init) (by decide) s
  · exact exec_wrCmd_of_decode (decodeCommand_absorb_word n hn) s
  · exact exec_wrCmd_of_decode (c := .final) (by decide) s
  · exact exec_wrCmd_of_decode (c := .clrerr) (by decide) s
  · cases hc : decodeCommand w with
    | error r => exact ⟨_, execWrCmd_error hc s⟩
    | ok c =>
      rw [exec_wrCmd_of_decode hc]
      exact exec_command_next c s

/-- Settles O15: `nop` only completes its write. -/
theorem nopChangesNothing : Obligations.NopChangesNothing :=
  ⟨fun _ => rfl, step_regWrite_cmd_of_decode (c := .nop) (by decide)⟩

/-- Settles O16: the initial context is written whole, so a second INIT writes the same. -/
theorem initLoadsTheInitialContext : Obligations.InitLoadsTheInitialContext :=
  ⟨exec_init_next, step_regWrite_cmd_of_decode (c := .init) (by decide), fun s => by
    rw [runInstrs_cons_next (exec_init_next s), runInstrs_singleton_next (exec_init_next _),
      runInstrs_singleton_next (exec_init_next s), initContext_respond_initContext]
    rfl⟩

/-- Settles O17: CLRERR is the return from an error; 0x14 has N of 1 and OP of CLRERR, and is illegal. -/
theorem clrerrClearsBothFlags : Obligations.ClrerrClearsBothFlags :=
  ⟨fun _ => rfl, step_regWrite_cmd_of_decode (c := .clrerr) (by decide),
    exec_wrCmd_illegal (by decide)⟩

end Sys2Proof.Machine
end

section
/-! The host's rendering of bytes (R107). -/

namespace Sys2Proof.Machine

/-- The characters of byte `i` stand at `2i` and `2i + 1`. -/
theorem hexRender_getElem? {bs : List Byte} {i : Nat} {b : Byte} (h : bs[i]? = some b) {k : Nat} (hk : k < 2) :
    (hexRender bs)[2 * i + k]? = (hexPair b)[k]? := by
  induction bs generalizing i with
  | nil => simp at h
  | cons c cs ih =>
    have hcons : hexRender (c :: cs) = hexPair c ++ hexRender cs := rfl
    have hlen : (hexPair c).length = 2 := rfl
    rw [hcons]
    cases i with
    | zero =>
      obtain rfl : c = b := by simpa using h
      rw [List.getElem?_append_left (by omega), Nat.mul_zero, Nat.zero_add]
    | succ i =>
      rw [List.getElem?_append_right (by omega), ← ih (by simpa using h)]
      congr 1
      omega

theorem hexRender_length (bs : List Byte) : (hexRender bs).length = 2 * bs.length := by
  simp [hexRender, hexPair, List.length_flatMap, Nat.mul_comm]

theorem hexAlphabet_getElem? {n : Nat} (h : n < 16) : hexAlphabet[n]? = some (hexAlphabet.getD n '0') := by
  have hlen : hexAlphabet.length = 16 := rfl
  rw [List.getD_eq_getElem _ _ (by omega), List.getElem?_eq_getElem]

/-- The first character is of the high nibble. -/
theorem hexPair_getElem?_zero (b : Byte) : (hexPair b)[0]? = hexAlphabet[b.toNat / 16]? := by
  have h := b.isLt
  have hnibble : (b >>> 4).toNat = b.toNat / 16 := by simp [Nat.shiftRight_eq_div_pow]
  rw [hexAlphabet_getElem? (by omega), ← hnibble]
  rfl

/-- The second character is of the low nibble. -/
theorem hexPair_getElem?_one (b : Byte) : (hexPair b)[1]? = hexAlphabet[b.toNat % 16]? := by
  have hnibble : (b &&& 0x0F).toNat = b.toNat % 16 := by
    rw [BitVec.toNat_and]
    exact Nat.and_two_pow_sub_one_eq_mod b.toNat 4
  rw [hexAlphabet_getElem? (by omega), ← hnibble]
  rfl

/-- Settles O58: by induction on the bytes, two characters each. -/
theorem hexRendersHighNibbleFirst : Obligations.HexRendersHighNibbleFirst :=
  ⟨fun _ _ b h => ⟨(hexRender_getElem? h (k := 0) (by decide)).trans (hexPair_getElem?_zero b),
      (hexRender_getElem? h (k := 1) (by decide)).trans (hexPair_getElem?_one b)⟩,
    hexRender_length, fun q => by rw [hexRender_length, digestBytes]; simp⟩

end Sys2Proof.Machine
end

section
/-! The rotation of the compression (R124). -/

namespace Sys2Proof.Machine

/-- The library reduces the amount modulo the width first, which changes no amount below 32. -/
theorem rotl32_eq_rotateLeft (x : Word) {s : Nat} (hs : s < 32) : rotl32 x s = x.rotateLeft s := by
  rw [rotl32, BitVec.rotateLeft, Nat.mod_eq_of_lt hs]
  rfl

/-- The `s` low bits come round from the top of `x`; the others move up by `s`. -/
theorem rotl32_getLsbD (x : Word) {s j : Nat} (hs : s < 32) (hj : j < 32) :
    (rotl32 x s).getLsbD j = x.getLsbD ((j + 32 - s) % 32) := by
  rw [rotl32_eq_rotateLeft x hs, BitVec.getLsbD_rotateLeft, Nat.mod_eq_of_lt hs]
  by_cases hjs : j < s
  · have hwrap : (j + 32 - s) % 32 = 32 - s + j := by omega
    simp [hjs, hwrap]
  · have hmove : (j + 32 - s) % 32 = j - s := by omega
    simp [hjs, hj, hmove]

theorem rotl32_zero (x : Word) : rotl32 x 0 = x := by
  rw [rotl32, BitVec.shiftLeft_zero, BitVec.ushiftRight_eq_zero (by decide), BitVec.or_zero]

theorem rotl32_width (x : Word) : rotl32 x 32 = x := by
  rw [rotl32, BitVec.shiftLeft_eq_zero (by decide), Nat.sub_self, BitVec.ushiftRight_zero, BitVec.zero_or]

/-- Settles O53: each bit of the rotation, and the two amounts at which one shift is empty and the other is `x`. -/
theorem rotationMovesBitsLeft : Obligations.RotationMovesBitsLeft :=
  ⟨fun x _ _ _ hs hj => rotl32_getLsbD x (by omega) hj, fun x => ⟨rotl32_zero x, rotl32_width x⟩⟩

end Sys2Proof.Machine
end

section
/-! The message-word index of each step (R127). -/

namespace Sys2Proof.Machine

/-- Within a round the index advances by 1, 5, 3 or 7, all odd, so no two of its 16 steps use the same word. -/
theorem constK_injective_in_round (r : Fin 4) :
    Function.Injective fun i : Fin 16 => constK (16 * r.val + i.val) := by
  unfold Function.Injective
  revert r
  decide

/-- Settles O56: sixteen steps that use sixteen words, none of them twice, use each of them once. -/
theorem eachRoundUsesEachWordOnce : Obligations.EachRoundUsesEachWordOnce :=
  ⟨rfl, rfl, rfl, rfl, fun r => (Finite.injective_iff_bijective.mp (constK_injective_in_round r)).existsUnique⟩

end Sys2Proof.Machine
end

section
/-! Accesses and words that are not legal (R150 to R152): the decoder rejects the one as a bus error, and a command word is
the encoding of the command it decodes to, so the rest are none. -/

namespace Sys2Proof.Machine

/-! ### Accesses that are not legal -/

/-- The decoder's rows are the registers of R51 in their directions: whatever is not legal is none of them. -/
theorem decodeDescriptor_of_not_legal (dir : Dir) : ∀ off : BitVec 6, legal dir off 32 = false →
    decodeDescriptor (descriptorOf dir off) 0 = .error (descriptorError (descriptorOf dir off)) := by
  cases dir <;> decide

theorem decodeAccess_of_not_legal {a : BusAccess} (h : legal a.dir a.off a.width = false) :
    ∃ reason, decodeAccess a = .error reason := by
  by_cases hw : a.width = 32
  · rw [hw] at h
    refine ⟨descriptorError (descriptorOf a.dir a.off), ?_⟩
    rw [decodeAccess, if_neg (not_not.mpr hw)]
    exact decodeDescriptor_error_of_zero (decodeDescriptor_of_not_legal a.dir a.off h) a.value
  · exact ⟨.badWidth, if_pos hw⟩

/-- An access that is not legal is BUS_ERR (R151). -/
theorem step_of_not_legal {a : BusAccess} (h : legal a.dir a.off a.width = false) (s : State) :
    ∃ reason, step (postNext (.access a) s) = .fault (.busErr reason a.off) := by
  obtain ⟨reason, hr⟩ := decodeAccess_of_not_legal h
  exact ⟨reason, by rw [step_postNext, performEvent, hr]; rfl⟩

/-- Settles O26: the fault leaves the host with the state it had. -/
theorem illegalAccessIsABusError : Obligations.IllegalAccessIsABusError := by
  intro s a h
  obtain ⟨reason, hstep⟩ := step_of_not_legal h s
  exact ⟨⟨reason, hstep⟩, by rw [hostPerform, hstep]; rfl⟩

/-! ### Words that are not legal -/

/-- An illegal word records ERR_CMD and its access completes (R152). -/
theorem step_regWrite_cmd_illegal {w : Word} (h : legalCmd w = false) (s : State) :
    step (postNext (.access (regWrite 0x08 w)) s) = .next (respond .ok (recordErrCmd s)) := by
  rw [step_regWrite_cmd, exec_wrCmd_illegal h]

/-- Settles O23: the record of ERR_CMD and the answer of R90 are the fields written. -/
theorem illegalWordRecordsErrCmd : Obligations.IllegalWordRecordsErrCmd := fun s _ h => step_regWrite_cmd_illegal h s

/-! ### The word of a command -/

theorem map_encodeCommand_decodeCommand {w : Word} (h : w ∈ listedCommandWords) :
    (decodeCommand w).map encodeCommand = .ok w := by
  have hall : listedCommandWords.map (fun v => (decodeCommand v).map encodeCommand) = listedCommandWords.map .ok := rfl
  exact List.map_inj_left.mp hall w h

/-- A word that decodes to a command is the command's encoding (R73). -/
theorem eq_encodeCommand_of_decodeCommand {w : Word} {c : Command} (h : decodeCommand w = .ok c) :
    w = encodeCommand c := by
  have hw := map_encodeCommand_decodeCommand (mem_listed_of_legalCmd (legalCmd_of_decodeCommand h))
  rw [h] at hw
  exact (Except.ok.inj hw).symm

theorem opField_encodeCommand_absorb : ∀ n : BitVec 3, opField (encodeCommand (.absorb n)) = 0x2 := by decide

/-- A command that is decoded from a word is well formed (R74). -/
theorem wf_of_decodeCommand {w : Word} {c : Command} (h : decodeCommand w = .ok c) : c.wf = true := by
  cases c with
  | absorb n => exact decodeCommand_absorb h
  | nop | init | final | clrerr => rfl

end Sys2Proof.Machine
end

section
/-! The error flags (R152, R153, R155, R156, R159): what each command does to them, and that nothing but `rd STATUS` reads
them. -/

namespace Sys2Proof.Machine

/-! ### What a command does to the flags -/

/-- The commands that a finalized context refuses (R153). -/
def IsUpdate (c : Command) : Prop := c = .final ∨ ∃ n, c = .absorb n

/-- CLRERR clears both flags, an update of a finalized context sets ERR_SEQ, and nothing else touches them. -/
theorem command_flags {c : Command} {s t : State} (hw : c.wf = true) (h : exec c.toInstr s = .next t) :
    (c = .clrerr ∧ NoErrors t) ∨
    (IsUpdate c ∧ s.done = true ∧ t.errCmd = s.errCmd ∧ t.errSeq = true) ∨
    (t.errCmd = s.errCmd ∧ t.errSeq = s.errSeq) := by
  obtain ⟨rfl, rfl⟩ | ⟨rfl, rfl⟩ | ⟨rfl, rfl⟩ | ⟨rfl, hd, rfl⟩ | ⟨rfl, hd, rfl⟩ | ⟨n, rfl, hd, rfl⟩ | ⟨n, rfl, hd, rfl⟩ :=
    command_cases hw h
  · exact .inr (.inr (by simp))
  · exact .inr (.inr (by simp))
  · exact .inl ⟨rfl, by simp [NoErrors]⟩
  · exact .inr (.inl ⟨.inl rfl, hd, by simp⟩)
  · obtain ⟨-, -, hcmd, hseq, -⟩ := pushBytes_frame (pad s.level (bitLength s.count)) s
    exact .inr (.inr (by simp [finish, hcmd, hseq]))
  · exact .inr (.inl ⟨.inr ⟨n, rfl⟩, hd, by simp⟩)
  · obtain ⟨-, hcmd, hseq, -⟩ := absorbBytes_frame (lanes s.data n.toNat) s
    exact .inr (.inr (by simp [hcmd, hseq]))

/-- No error is recorded that was not recorded before. -/
abbrev NoNewError (s t : State) : Prop := (t.errCmd = true → s.errCmd = true) ∧ (t.errSeq = true → s.errSeq = true)

/-- No command records ERR_CMD, and only an update of a finalized context ERR_SEQ (R155). -/
theorem command_records {c : Command} {s t : State} (hw : c.wf = true) (h : exec c.toInstr s = .next t) :
    (t.errCmd = true → s.errCmd = true) ∧ (t.errSeq = true → s.errSeq = true ∨ (s.done = true ∧ IsUpdate c)) := by
  obtain ⟨-, hcmd, hseq⟩ | ⟨hup, hd, hcmd, hseq⟩ | ⟨hcmd, hseq⟩ := command_flags hw h
  · simp [hcmd, hseq]
  · simp [hcmd, hd, hup]
  · exact ⟨by simp [hcmd], fun hset => .inl (hseq ▸ hset)⟩

/-- In its legal state a command records no error (R159). -/
theorem command_noNewError {c : Command} {s t : State} (hw : c.wf = true) (h : exec c.toInstr s = .next t)
    (hs : s.done = false ∨ ¬ IsUpdate c) : NoNewError s t := by
  obtain ⟨hcmd, hseq⟩ := command_records hw h
  refine ⟨hcmd, fun hset => (hseq hset).resolve_right ?_⟩
  rintro ⟨hd, hup⟩
  obtain hopen | hother := hs
  · simp [hd] at hopen
  · exact hother hup

/-- The words of the updates: OP is 2, or the word is that of `final` (R73). -/
theorem op_of_update_word {w : Word} {c : Command} (h : decodeCommand w = .ok c) (hup : IsUpdate c) :
    opField w = 0x2 ∨ w = 0x3 := by
  rw [eq_encodeCommand_of_decodeCommand h]
  obtain rfl | ⟨n, rfl⟩ := hup
  · exact .inr rfl
  · exact .inl (opField_encodeCommand_absorb n)

/-- Settles O24: the cases of ABSORB and FINAL with `done = 1`; the other three commands never write 1 to ERR_SEQ. -/
theorem updateAfterFinalRecordsErrSeq : Obligations.UpdateAfterFinalRecordsErrSeq := by
  refine ⟨fun s n hd hn => execAbsorb_done (decide_eq_true hn) hd, fun s hd => execFinal_done hd, fun s i hi => ?_,
    fun s => ⟨_, exec_init_next s, by simp⟩⟩
  simp only [List.mem_cons, List.not_mem_nil, or_false] at hi
  obtain rfl | rfl | rfl := hi
  · exact ⟨_, rfl, by simp⟩
  · exact ⟨_, exec_init_next s, by simp⟩
  · exact ⟨_, rfl, by simp⟩

/-- Settles O27: the decoder of accesses comes first, then that of words, then the command's own test of `done`. -/
theorem errorsHaveOnePriority : Obligations.ErrorsHaveOnePriority := by
  refine ⟨fun s a h => step_of_not_legal h s, fun s w h => step_regWrite_cmd_illegal h s, fun s w h => ?_,
    fun s _ => step_regWrite_cmd_illegal (by decide) s⟩
  obtain ⟨c, hc⟩ := decodeCommand_of_legalCmd h
  obtain ⟨t, ht⟩ := exec_command_next c s
  obtain ⟨hcmd, hseq⟩ := command_records (wf_of_decodeCommand hc) ht
  refine ⟨t, by rw [step_regWrite_cmd_of_decode hc, ht], hcmd, fun hset => ?_⟩
  exact (hseq hset).imp_right fun ⟨hd, hup⟩ => ⟨hd, op_of_update_word hc hup⟩

/-! ### Every instruction completes -/

/-- A command, given as the instruction it is, in its legal state (R159). -/
theorem exec_command_completes {c : Command} (hw : c.wf = true) (s : State) :
    ∃ t, exec c.toInstr s = .next t ∧
      (s.done = false ∨ ((∀ n, c.toInstr ≠ .absorb n) ∧ c.toInstr ≠ .final) → NoNewError s t) := by
  obtain ⟨t, ht⟩ := exec_command_next c s
  refine ⟨t, ht, fun hs => command_noNewError hw ht (hs.imp_right ?_)⟩
  rintro ⟨habsorb, hfinal⟩ (rfl | ⟨n, rfl⟩)
  · exact hfinal rfl
  · exact habsorb n rfl

/-- A command, given as the word of a `wr CMD`, in its legal state (R159). -/
theorem exec_wrCmd_completes {w : Word} (hw : legalCmd w = true) (s : State) :
    ∃ t, exec (.wrCmd w) s = .next t ∧
      (s.done = false ∨ (opField w ≠ 0x2 ∧ opField w ≠ 0x3) → NoNewError s t) := by
  obtain ⟨c, hc⟩ := decodeCommand_of_legalCmd hw
  obtain ⟨t, ht⟩ := exec_command_next c s
  refine ⟨t, by rw [exec_wrCmd_of_decode hc, ht],
    fun hs => command_noNewError (wf_of_decodeCommand hc) ht (hs.imp_right ?_)⟩
  rintro ⟨habsorb, hfinal⟩ hup
  obtain hop | rfl := op_of_update_word hc hup
  · exact habsorb hop
  · exact hfinal (by decide)

/-- An instruction is a command, a `wr CMD`, or one that touches no flag: a read or `wr DATA`. -/
theorem instr_cases {i : Instr} (hw : WellFormed i) :
    (∃ c : Command, c.wf = true ∧ i = c.toInstr) ∨ (∃ w, i = .wrCmd w) ∨
      ∀ s, ∃ t, exec i s = .next t ∧ t.errCmd = s.errCmd ∧ t.errSeq = s.errSeq := by
  cases i with
  | rdId | rdStatus | rdCmd | rdData | rdCountLo | rdCountHi | rdDigest _ | wrData _ =>
    exact .inr (.inr fun _ => ⟨_, rfl, rfl, rfl⟩)
  | wrCmd w => exact .inr (.inl ⟨w, rfl⟩)
  | nop => exact .inl ⟨.nop, hw, rfl⟩
  | init => exact .inl ⟨.init, hw, rfl⟩
  | absorb n => exact .inl ⟨.absorb n, hw, rfl⟩
  | final => exact .inl ⟨.final, hw, rfl⟩
  | clrerr => exact .inl ⟨.clrerr, hw, rfl⟩

/-- Settles O30: a command, bare or as the word of a `wr CMD`, completes and in its legal state records nothing, and the
other instructions touch no flag. -/
theorem everyInstructionCompletes : Obligations.EveryInstructionCompletes := by
  intro i s hwf
  obtain ⟨c, hw, rfl⟩ | ⟨w, rfl⟩ | hother := instr_cases hwf
  · obtain ⟨t, ht, hrec⟩ := exec_command_completes hw s
    exact ⟨t, ht, fun _ hs => hrec (hs.imp_right fun ⟨habsorb, hfinal, _⟩ => ⟨habsorb, hfinal⟩)⟩
  · cases hw : legalCmd w with
    | false => exact ⟨_, exec_wrCmd_illegal hw s, fun hlegal => by simp [hw] at hlegal⟩
    | true =>
      obtain ⟨t, ht, hrec⟩ := exec_wrCmd_completes hw s
      exact ⟨t, ht, fun _ hs => hrec (hs.imp_right fun ⟨_, _, hop⟩ => hop w rfl)⟩
  · obtain ⟨t, ht, hcmd, hseq⟩ := hother s
    exact ⟨t, ht, fun _ _ => ⟨fun h => hcmd ▸ h, fun h => hseq ▸ h⟩⟩

end Sys2Proof.Machine
end

section
/-! The error flags block nothing (R156): a state with the flags at other values goes through the same changes, and only
the answer to `rd STATUS` differs. -/

namespace Sys2Proof.Machine

/-- The state with its error flags at given values. -/
def setFlags (cmd seq : Bool) (s : State) : State := { s with errCmd := cmd, errSeq := seq }

section
variable (b1 b2 : Bool) (s : State)

@[simp] theorem setFlags_level : (setFlags b1 b2 s).level = s.level := by unfold setFlags; rfl
@[simp] theorem setFlags_count : (setFlags b1 b2 s).count = s.count := by unfold setFlags; rfl
@[simp] theorem setFlags_done : (setFlags b1 b2 s).done = s.done := by unfold setFlags; rfl
@[simp] theorem setFlags_data : (setFlags b1 b2 s).data = s.data := by unfold setFlags; rfl

/-! ### The operations on the context commute with the flags' values -/

theorem respond_setFlags (r : BusResponse) : respond r (setFlags b1 b2 s) = setFlags b1 b2 (respond r s) := by
  unfold respond setFlags; rfl

theorem recordErrCmd_setFlags : recordErrCmd (setFlags b1 b2 s) = setFlags true b2 (recordErrCmd s) := by
  unfold recordErrCmd setFlags; rfl

theorem recordErrSeq_setFlags : recordErrSeq (setFlags b1 b2 s) = setFlags b1 true (recordErrSeq s) := by
  unfold recordErrSeq setFlags; rfl

theorem countByte_setFlags : countByte (setFlags b1 b2 s) = setFlags b1 b2 (countByte s) := by
  unfold countByte setFlags; rfl

theorem setDone_setFlags : setDone (setFlags b1 b2 s) = setFlags b1 b2 (setDone s) := by
  unfold setDone setFlags; rfl

theorem pushByte_setFlags (x : Byte) : pushByte x (setFlags b1 b2 s) = setFlags b1 b2 (pushByte x s) := by
  by_cases h : s.level = 63
  · rw [pushByte_full h, pushByte_full ((setFlags_level b1 b2 s).trans h)]
    unfold processBlock putByte setFlags; rfl
  · rw [pushByte_room h, pushByte_room ((setFlags_level b1 b2 s).trans_ne h)]
    unfold putByte setFlags; rfl

theorem pushBytes_setFlags (xs : List Byte) : pushBytes xs (setFlags b1 b2 s) = setFlags b1 b2 (pushBytes xs s) := by
  induction xs generalizing s with
  | nil => rfl
  | cons x xs ih => rw [pushBytes_cons, pushBytes_cons, pushByte_setFlags, ih]

theorem absorbBytes_setFlags (xs : List Byte) :
    absorbBytes xs (setFlags b1 b2 s) = setFlags b1 b2 (absorbBytes xs s) := by
  induction xs generalizing s with
  | nil => rfl
  | cons x xs ih =>
    rw [absorbBytes_cons, absorbBytes_cons, absorbByte, countByte_setFlags, pushByte_setFlags, ih, absorbByte]

theorem finish_setFlags : finish (setFlags b1 b2 s) = setFlags b1 b2 (finish s) := by
  rw [finish, setFlags_level, setFlags_count, pushBytes_setFlags, setDone_setFlags, finish]

end

/-! ### Commands, instructions, events -/

/-- ABSORB and FINAL look at `done` and not at the flags, and the other commands at neither (R156). -/
theorem exec_command_setFlags {c : Command} {s t : State} (hw : c.wf = true) (b1 b2 : Bool)
    (h : exec c.toInstr s = .next t) :
    ∃ c1 c2, exec c.toInstr (setFlags b1 b2 s) = .next (setFlags c1 c2 t) := by
  obtain ⟨rfl, rfl⟩ | ⟨rfl, rfl⟩ | ⟨rfl, rfl⟩ | ⟨rfl, hd, rfl⟩ | ⟨rfl, hd, rfl⟩ | ⟨n, rfl, hd, rfl⟩ | ⟨n, rfl, hd, rfl⟩ :=
    command_cases hw h
  · exact ⟨b1, b2, rfl⟩
  · exact ⟨b1, b2, rfl⟩
  · exact ⟨false, false, rfl⟩
  · refine ⟨b1, true, (execFinal_done (by simp [hd])).trans ?_⟩
    rw [recordErrSeq_setFlags, respond_setFlags]
  · refine ⟨b1, b2, (execFinal_open (by simp [hd])).trans ?_⟩
    rw [finish_setFlags, respond_setFlags]
  · refine ⟨b1, true, (execAbsorb_done hw (by simp [hd])).trans ?_⟩
    rw [recordErrSeq_setFlags, respond_setFlags]
  · refine ⟨b1, b2, (execAbsorb_open hw (by simp [hd])).trans ?_⟩
    rw [setFlags_data, absorbBytes_setFlags, respond_setFlags]

theorem exec_wrCmd_setFlags {w : Word} {s t : State} (b1 b2 : Bool) (h : exec (.wrCmd w) s = .next t) :
    ∃ c1 c2, exec (.wrCmd w) (setFlags b1 b2 s) = .next (setFlags c1 c2 t) := by
  cases hc : decodeCommand w with
  | ok c =>
    rw [exec_wrCmd_of_decode hc] at h
    rw [exec_wrCmd_of_decode hc]
    exact exec_command_setFlags (wf_of_decodeCommand hc) b1 b2 h
  | error r =>
    rw [next_inj ((execWrCmd_error hc s).symm.trans h)]
    exact ⟨true, b2, execWrCmd_error hc _⟩

/-- What an access decodes to answers the same word, unless it is `rd STATUS` (R34, R90). -/
theorem exec_access_setFlags {a : BusAccess} {i : Instr} {s t : State} (hi : decodeAccess a = .ok i) (b1 b2 : Bool)
    (h : exec i s = .next t) :
    ∃ c1 c2 r, exec i (setFlags b1 b2 s) = .next (respond r (setFlags c1 c2 t)) ∧ (r = t.response ∨ i = .rdStatus) := by
  cases i with
  | rdStatus =>
    rw [next_inj h]
    exact ⟨b1, b2, _, rfl, .inr rfl⟩
  | rdId | rdCmd | rdData | rdCountLo | rdCountHi | rdDigest _ | wrData _ =>
    rw [next_inj h]
    exact ⟨b1, b2, _, rfl, .inl rfl⟩
  | wrCmd w =>
    obtain ⟨c1, c2, hx⟩ := exec_wrCmd_setFlags b1 b2 h
    exact ⟨c1, c2, t.response, hx, .inl rfl⟩
  | nop | init | absorb _ | final | clrerr => simpa using decodeAccess_cases hi

/-- Every event answers a next state that differs in the flags alone, and in what `rd STATUS` returns (R156). -/
theorem step_setFlags {e : HostEvent} {s t : State} (b1 b2 : Bool) (h : step (postNext e s) = .next t) :
    ∃ c1 c2 r, step (postNext e (setFlags b1 b2 s)) = .next (respond r (setFlags c1 c2 t)) ∧
      (r = t.response ∨ ∃ a, e = .access a ∧ decodeAccess a = .ok .rdStatus) := by
  rw [step_postNext] at h ⊢
  cases e with
  | accessDuringReset a => cases h
  | reset =>
    rw [next_inj h]
    exact ⟨false, false, .idle, rfl, .inl rfl⟩
  | access a =>
    cases hi : decodeAccess a with
    | error reason =>
      rw [performEvent, hi] at h
      cases h
    | ok i =>
      rw [performEvent, hi] at h ⊢
      obtain ⟨c1, c2, r, hx, hr⟩ := exec_access_setFlags hi b1 b2 h
      exact ⟨c1, c2, r, hx, hr.imp_right fun hst => ⟨a, rfl, hi.trans (congrArg _ hst)⟩⟩

/-! ### The flags stay -/

/-- Only CLRERR and reset clear a flag (R156). -/
theorem step_keeps_flags {e : HostEvent} {s t : State} (h : step (postNext e s) = .next t) :
    (EventIssues e .clrerr ∨ e = .reset) ∨
      ((s.errCmd = true → t.errCmd = true) ∧ (s.errSeq = true → t.errSeq = true)) := by
  obtain ⟨rfl, -⟩ | ⟨-, -, -, -, -, -, -, -, rfl⟩ | ⟨-, -, -, -, rfl⟩ | ⟨-, -, -, -, -, -, rfl⟩ |
    ⟨a, w, c, rfl, hi, hc, hw, hx⟩ := step_cases h
  · exact .inl (.inr rfl)
  · exact .inr (by simp)
  · exact .inr (by simp)
  · exact .inr (by simp)
  · obtain ⟨rfl, -⟩ | ⟨-, -, hcmd, hseq⟩ | ⟨hcmd, hseq⟩ := command_flags hw hx
    · exact .inl (.inl ⟨a, w, rfl, hi, hc⟩)
    · exact .inr ⟨hcmd.trans, fun _ => hseq⟩
    · exact .inr ⟨hcmd.trans, hseq.trans⟩

/-- Settles O28: a flag is cleared by CLRERR and reset alone, and a step from other flags goes the same way. -/
theorem errorFlagsAreStickyAndBlockNothing : Obligations.ErrorFlagsAreStickyAndBlockNothing := by
  refine ⟨fun e s t h => ?_, fun e s t b1 b2 h => step_setFlags b1 b2 h⟩
  obtain hclears | ⟨hcmd, hseq⟩ := step_keeps_flags h
  · exact ⟨fun _ => .inr hclears, fun _ => .inr hclears⟩
  · exact ⟨fun hset => .inl (hcmd hset), fun hset => .inl (hseq hset)⟩

end Sys2Proof.Machine
end

section
/-! Accesses while reset is being applied (R184): the spec does not say what they do. -/

namespace Sys2Proof.Machine

/-- Settles O3: the step performs the posted event, and that event's one meaning is the refusal, whatever the access
asks and whatever the state holds. -/
theorem accessDuringResetIsRefused : Obligations.AccessDuringResetIsRefused := by
  intro s a
  calc step (postNext (.accessDuringReset a) s)
    _ = performEvent (.accessDuringReset a) s := step_postNext _ s
    _ = refuseDuringReset a s := by rw [performEvent]
    _ = .refused .accessDuringReset := by rw [refuseDuringReset]

end Sys2Proof.Machine
end

section
/-! The encoder against the two decoders (R70 to R76, R81), and which accesses decode (R51). -/

namespace Sys2Proof.Machine

/-! ### Decoding an encoding -/

theorem decodeCommand_encodeCommand {c : Command} (h : c.wf = true) : decodeCommand (encodeCommand c) = .ok c := by
  cases c with
  | absorb n =>
    have hall : ∀ n : BitVec 3, countInRange n = true → decodeCommand (encodeCommand (.absorb n)) = .ok (.absorb n) := by
      decide
    exact hall n h
  | nop | init | final | clrerr => rfl

theorem decode_formC_encodeCommand {c : Command} (h : c.wf = true) :
    decode (.formC (encodeCommand c)) = .ok c.toInstr := by
  simp [decode, decodeCommand_encodeCommand h]

theorem decode_encode_rdDigest : ∀ n : BitVec 2, decode (encode (.rdDigest n)) = .ok (.rdDigest n) := by decide

/-- Settles O39: the format-B rows have constant descriptors but for the two bits of `rd DIGESTn`, and the commands are
decoded by their own decoder. -/
theorem decodeOfEncodeIsTheInstruction : Obligations.DecodeOfEncodeIsTheInstruction := by
  intro i h
  cases i with
  | rdId | rdStatus | rdCmd | rdData | rdCountLo | rdCountHi | wrData _ | wrCmd _ => rfl
  | rdDigest n => exact decode_encode_rdDigest n
  | nop => exact decode_formC_encodeCommand (c := .nop) h
  | init => exact decode_formC_encodeCommand (c := .init) h
  | absorb n => exact decode_formC_encodeCommand (c := .absorb n) h
  | final => exact decode_formC_encodeCommand (c := .final) h
  | clrerr => exact decode_formC_encodeCommand (c := .clrerr) h

/-! ### Encoding what was decoded -/

/-- The descriptors that match the row of `rd DIGESTn` are the row's pattern with OFF[3:2] put back (R73). -/
theorem encode_rdDigest_of_match : ∀ d : BitVec 7, d &&& 0x73 = 0x20 →
    encode (.rdDigest (d.extractLsb' 2 2)) = .formB d 0 ∧ d.getLsbD 6 = false := by
  decide

/-- Each row of R73 fixes its descriptor, and bit W of it says whether the access carries the value. -/
theorem encode_of_decodeDescriptor {d : BitVec 7} {v : Word} {i : Instr} (h : decodeDescriptor d v = .ok i) :
    WellFormed i ∧ encode i = .formB d (if d.getLsbD 6 then v else 0) := by
  unfold decodeDescriptor at h
  split_ifs at h with h1 h2 h3 h4 h5 h6 hdigest hdata hcmd <;> obtain rfl := Except.ok.inj h <;> refine ⟨rfl, ?_⟩
  pick_goal 7
  · obtain ⟨henc, hbit⟩ := encode_rdDigest_of_match d hdigest
    rw [henc, hbit]
    rfl
  all_goals subst d; rfl

/-- Settles O40: a legal word is one of the nine listed, and a legal descriptor one of the decoder's rows. -/
theorem encodeOfDecodeIsTheForm : Obligations.EncodeOfDecodeIsTheForm :=
  ⟨fun _ _ h => ⟨wf_of_decodeCommand h, (eq_encodeCommand_of_decodeCommand h).symm⟩,
    fun _ _ _ h => encode_of_decodeDescriptor h⟩

/-! ### The twelve descriptors -/

/-- The descriptors of R73's rows, in its order. -/
def listedDescriptors : List (BitVec 7) :=
  [0x00, 0x04, 0x08, 0x0C, 0x10, 0x14, 0x20, 0x24, 0x28, 0x2C, 0x48, 0x4C]

/-- The registers of R31 in the directions of R51 are the rows of R73. -/
theorem legal_word_iff (dir : Dir) :
    ∀ off : BitVec 6, legal dir off 32 = true ↔ descriptorOf dir off ∈ listedDescriptors := by
  cases dir <;> decide

theorem legal_iff {dir : Dir} {off : BitVec 6} {width : Nat} :
    legal dir off width = true ↔ width = 32 ∧ descriptorOf dir off ∈ listedDescriptors := by
  by_cases hw : width = 32
  · subst hw
    simp [legal_word_iff]
  · simp [legal, hw]

theorem decodeDescriptor_of_mem_listed {d : BitVec 7} (h : d ∈ listedDescriptors) (v : Word) :
    ∃ i, decodeDescriptor d v = .ok i := by
  fin_cases h <;> exact ⟨_, rfl⟩

theorem decodeAccess_of_legal {a : BusAccess} (h : legal a.dir a.off a.width = true) : ∃ i, decodeAccess a = .ok i := by
  obtain ⟨hw, hd⟩ := legal_iff.mp h
  obtain ⟨i, hi⟩ := decodeDescriptor_of_mem_listed hd a.value
  exact ⟨i, by simp [decodeAccess, hw, hi]⟩

theorem legal_of_decodeAccess {a : BusAccess} {i : Instr} (h : decodeAccess a = .ok i) :
    legal a.dir a.off a.width = true := by
  cases hlegal : legal a.dir a.off a.width with
  | true => rfl
  | false =>
    obtain ⟨r, hr⟩ := decodeAccess_of_not_legal hlegal
    rw [hr] at h
    cases h

/-- Settles O42: the offsets of R51 put behind bit W are the listed descriptors, and those are the decoder's rows. -/
theorem twelveDescriptorsAreLegal : Obligations.TwelveDescriptorsAreLegal := fun _ _ _ _ =>
  ⟨legal_iff, fun h => decodeAccess_of_legal h, fun ⟨_, h⟩ => legal_of_decodeAccess h⟩

/-- Settles O43: each listed number is decoded by its form's decoder, which is a computation. -/
theorem listedEncodingsDecode : Obligations.ListedEncodingsDecode := ⟨rfl, rfl⟩

end Sys2Proof.Machine
end

section
/-! What a step can do to the context and to the model's own fields, said once (R20 to R28, R58, R59): which events write
which element. -/

namespace Sys2Proof.Machine

/-! ### Events -/

theorem legalCmd_of_decodeCommand_error {w : Word} {r : CmdErrReason} (h : decodeCommand w = .error r) :
    legalCmd w = false := by
  cases hlegal : legalCmd w with
  | false => rfl
  | true =>
    obtain ⟨c, hc⟩ := decodeCommand_of_legalCmd hlegal
    rw [h] at hc
    cases hc

theorem performEvent_access {a : BusAccess} {i : Instr} (h : decodeAccess a = .ok i) (s : State) :
    performEvent (.access a) s = exec i s := by
  simp [performEvent, h]

/-- An event that issues a command performs it (R90, R99). -/
theorem step_of_issues {e : HostEvent} {c : Command} (h : EventIssues e c) (s : State) :
    step (postNext e s) = exec c.toInstr s := by
  obtain ⟨a, w, rfl, ha, hw⟩ := h
  rw [step_postNext, performEvent_access ha, exec_wrCmd_of_decode hw]

/-! ### The context -/

/-- The two states hold the same context: the elements of R21 to R26. -/
def SameContext (s t : State) : Prop :=
  t.st = s.st ∧ t.buf = s.buf ∧ t.level = s.level ∧ t.count = s.count ∧ t.done = s.done

theorem finish_frame (s : State) :
    (finish s).count = s.count ∧ (finish s).done = true ∧ (finish s).errCmd = s.errCmd ∧
      (finish s).errSeq = s.errSeq ∧ (finish s).data = s.data ∧ (finish s).pending = s.pending := by
  simp [finish, pushBytes_frame]

/-- A step resets the context, initializes it, finalizes or extends an open one, or leaves it alone. -/
theorem step_context_cases {e : HostEvent} {s t : State} (h : step (postNext e s) = .next t) :
    (e = .reset ∧ t = applyReset s) ∨
    (EventIssues e .init ∧ t = respond .ok (initContext s)) ∨
    (EventIssues e .final ∧ s.done = false ∧ t = respond .ok (finish s)) ∨
    (∃ n, EventIssues e (.absorb n) ∧ s.done = false ∧ t = respond .ok (absorbBytes (lanes s.data n.toNat) s)) ∨
    SameContext s t := by
  obtain hreset | ⟨-, -, -, -, -, -, -, -, rfl⟩ | ⟨-, -, -, -, rfl⟩ | ⟨-, -, -, -, -, -, rfl⟩ |
    ⟨a, w, c, he, ha, hc, hw, hx⟩ := step_cases h
  · exact .inl hreset
  · simp [SameContext]
  · simp [SameContext]
  · simp [SameContext]
  · have hissues : EventIssues e c := ⟨a, w, he, ha, hc⟩
    obtain ⟨rfl, rfl⟩ | ⟨rfl, rfl⟩ | ⟨rfl, rfl⟩ | ⟨rfl, -, rfl⟩ | ⟨rfl, hd, rfl⟩ | ⟨n, rfl, -, rfl⟩ | ⟨n, rfl, hd, rfl⟩ :=
      command_cases hw hx
    · simp [SameContext]
    · exact .inr (.inl ⟨hissues, rfl⟩)
    · simp [SameContext]
    · simp [SameContext]
    · exact .inr (.inr (.inl ⟨hissues, hd, rfl⟩))
    · simp [SameContext]
    · exact .inr (.inr (.inr (.inl ⟨n, hissues, hd, rfl⟩)))

/-- Settles O32: of the events that write the context, FINAL sets DONE, INIT and reset clear it, and ABSORB keeps it. -/
theorem doneIsSetByFinalAndClearedByInit : Obligations.DoneIsSetByFinalAndClearedByInit := by
  intro e s t h
  obtain ⟨he, rfl⟩ | ⟨he, rfl⟩ | ⟨he, -, rfl⟩ | ⟨n, -, hd, rfl⟩ | ⟨-, -, -, -, hdone⟩ := step_context_cases h
  · simp [he]
  · simp [he]
  · simp [he, finish_frame]
  · simp [hd, absorbBytes_frame]
  · exact ⟨fun ht => .inl (hdone ▸ ht), fun ht => .inl (hdone ▸ ht)⟩

/-! ### DATA and the queue -/

/-- No command writes DATA or the queue (R28, R59). -/
theorem command_keeps_data_and_queue {c : Command} {s t : State} (hw : c.wf = true) (h : exec c.toInstr s = .next t) :
    t.data = s.data ∧ t.pending = s.pending := by
  obtain ⟨-, rfl⟩ | ⟨-, rfl⟩ | ⟨-, rfl⟩ | ⟨-, -, rfl⟩ | ⟨-, -, rfl⟩ | ⟨n, -, -, rfl⟩ | ⟨n, -, -, rfl⟩ :=
    command_cases hw h <;> simp [finish_frame, absorbBytes_frame]

theorem step_data {e : HostEvent} {s t : State} (h : step (postNext e s) = .next t) :
    (∃ a v, e = .access a ∧ decodeAccess a = .ok (.wrData v) ∧ t.data = v) ∨ e = .reset ∨ t.data = s.data := by
  obtain ⟨rfl, -⟩ | ⟨-, -, -, -, -, -, -, -, rfl⟩ | ⟨a, v, he, ha, rfl⟩ | ⟨-, -, -, -, -, -, rfl⟩ |
    ⟨-, -, c, -, -, -, hw, hx⟩ := step_cases h
  · exact .inr (.inl rfl)
  · exact .inr (.inr (by simp))
  · exact .inl ⟨a, v, he, ha, by simp⟩
  · exact .inr (.inr (by simp))
  · obtain ⟨hdata, -⟩ := command_keeps_data_and_queue hw hx
    exact .inr (.inr hdata)

/-- Settles O33: the context's writers are those of `step_context_cases`, and FINAL keeps the count. -/
theorem contextIsWrittenOnlyByItsCommands : Obligations.ContextIsWrittenOnlyByItsCommands := by
  intro e s t h
  refine and_assoc.mp ⟨?_, step_data h⟩
  obtain ⟨he, -⟩ | ⟨he, -⟩ | ⟨he, -, rfl⟩ | ⟨n, he, -, -⟩ | ⟨hst, hbuf, hlevel, hcount, -⟩ := step_context_cases h
  · exact ⟨.inl (.inr (.inr (.inr he))), .inl (.inr (.inr he))⟩
  · exact ⟨.inl (.inr (.inr (.inl he))), .inl (.inr (.inl he))⟩
  · exact ⟨.inl (.inr (.inl he)), .inr (by simp [finish_frame])⟩
  · exact ⟨.inl (.inl ⟨n, he⟩), .inl (.inl ⟨n, he⟩)⟩
  · exact ⟨.inr ⟨hst, hbuf, hlevel⟩, .inr hcount⟩

/-- An event's effect leaves the later events queued (R59). -/
theorem step_keeps_queue {e : HostEvent} {s t : State} (h : step (postNext e s) = .next t) : t.pending = s.pending := by
  obtain ⟨-, rfl⟩ | ⟨-, -, -, -, -, -, -, -, rfl⟩ | ⟨-, -, -, -, rfl⟩ | ⟨-, -, -, -, -, -, rfl⟩ |
    ⟨-, -, c, -, -, -, hw, hx⟩ := step_cases h
  · simp
  · simp
  · simp
  · simp
  · obtain ⟨-, hpending⟩ := command_keeps_data_and_queue hw hx
    exact hpending

/-- A state with a pending event is one in which that event was posted. -/
theorem eq_postNext {s : State} {e : HostEvent} {rest : List HostEvent} (h : s.pending = e :: rest) :
    s = postNext e { s with pending := rest } := by
  cases s
  cases h
  rfl

theorem step_idle {s : State} (h : s.pending = []) : step s = .next s := by simp [step, h]

/-- Settles O45: the event is performed in the state that no longer lists it, and its effect keeps the queue. -/
theorem stepConsumesOneEvent : Obligations.StepConsumesOneEvent := by
  intro s t e rest hpending hstep
  rw [eq_postNext hpending] at hstep
  exact step_keeps_queue hstep

/-! ### The error flags -/

/-- Settles O31: an illegal word records ERR_CMD, a command only what `command_records` says, and no other event
records. -/
theorem errorFlagsAreSetOnlyByErrors : Obligations.ErrorFlagsAreSetOnlyByErrors := by
  intro e s t h
  obtain ⟨-, rfl⟩ | ⟨-, -, -, -, -, -, -, -, rfl⟩ | ⟨-, -, -, -, rfl⟩ | ⟨a, w, r, he, ha, hr, rfl⟩ |
    ⟨a, w, c, he, ha, hc, hw, hx⟩ := step_cases h
  · simp
  · simp +contextual
  · simp +contextual
  · exact ⟨fun _ => .inr ⟨a, w, he, ha, legalCmd_of_decodeCommand_error hr⟩, fun hset => .inl (by simpa using hset)⟩
  · obtain ⟨hcmd, hseq⟩ := command_records hw hx
    refine ⟨fun hset => .inl (hcmd hset), fun hset => (hseq hset).imp_right ?_⟩
    rintro ⟨hd, rfl | ⟨n, rfl⟩⟩
    · exact ⟨hd, .inr ⟨a, w, he, ha, hc⟩⟩
    · exact ⟨hd, .inl ⟨n, a, w, he, ha, hc⟩⟩

/-! ### Reads -/

/-- A descriptor whose bit W is 0 is no row of a write (R71). -/
theorem descriptorOf_read_bit6 : ∀ off : BitVec 6, (descriptorOf .read off).getLsbD 6 = false := by decide

/-- A read access decodes to an instruction that answers a word and does nothing else (R58). -/
theorem exec_of_decodeAccess_read {a : BusAccess} {i : Instr} (hdir : a.dir = .read) (h : decodeAccess a = .ok i)
    (s : State) : ∃ w, exec i s = answerRead w s := by
  have hrow : ∃ v, encode i = .formB (descriptorOf .read a.off) v := by
    unfold decodeAccess at h
    split_ifs at h
    obtain ⟨-, henc⟩ := encode_of_decodeDescriptor h
    exact ⟨_, hdir ▸ henc⟩
  obtain ⟨v, hv⟩ := hrow
  cases i with
  | rdId | rdStatus | rdCmd | rdData | rdCountLo | rdCountHi | rdDigest _ => exact ⟨_, rfl⟩
  | wrData _ | wrCmd _ =>
    obtain ⟨hd, -⟩ := Form.formB.inj hv
    have hbit := descriptorOf_read_bit6 a.off
    rw [← hd] at hbit
    cases hbit
  | nop | init | absorb _ | final | clrerr => cases hv

theorem step_legal_read {a : BusAccess} (hdir : a.dir = .read) (h : legal a.dir a.off a.width = true) (s : State) :
    ∃ w, step (postNext (.access a) s) = .next (respond (.data w) s) := by
  obtain ⟨i, hi⟩ := decodeAccess_of_legal h
  obtain ⟨w, hw⟩ := exec_of_decodeAccess_read hdir hi s
  exact ⟨w, by rw [step_postNext, performEvent_access hi, hw, answerRead]⟩

/-- Settles O34: a legal read decodes to a read, which only answers. -/
theorem readsHaveNoSideEffect : Obligations.ReadsHaveNoSideEffect := fun s _ hdir h => step_legal_read hdir h s

end Sys2Proof.Machine
end

section
/-! `absorb` and `final` of an open context, byte by byte (R102 to R105, R132): inside a block, across a block, and with
the padding in one block or two. -/

namespace Sys2Proof.Machine

/-! ### The bytes appended -/

theorem lanes_getD (v : Word) (n j : Nat) :
    (lanes v n).getD j 0 = if j < n then v.extractLsb' (8 * j) 8 else 0 := by
  by_cases h : j < n <;> simp [lanes, lane, h]

theorem lanes_take (v : Word) {m n : Nat} (h : m ≤ n) : (lanes v n).take m = lanes v m := by
  rw [lanes, ← List.map_take, List.take_range, Nat.min_eq_left h, lanes]

theorem lanes_drop_getD (v : Word) (m n j : Nat) :
    ((lanes v n).drop m).getD j 0 = if m + j < n then v.extractLsb' (8 * (m + j)) 8 else 0 := by
  rw [← lanes_getD, List.getD_eq_getElem?_getD, List.getElem?_drop, ← List.getD_eq_getElem?_getD]

/-- The bytes of R10 as quotients. -/
theorem le64bytes_eq (bits : BitVec 64) :
    le64bytes bits = (List.range 8).map fun k => BitVec.ofNat 8 (bits.toNat / 2 ^ (8 * k)) := by
  simp only [le64bytes, BitVec.extractLsb', Nat.shiftRight_eq_div_pow]

theorem bitLength_ofNat (n : Nat) : bitLength (BitVec.ofNat 64 n) = BitVec.ofNat 64 (8 * n) := by
  rw [bitLength, Nat.mul_comm, BitVec.ofNat_mul]
  rfl

theorem bitLength_eq (c : BitVec 64) : bitLength c = BitVec.ofNat 64 (8 * c.toNat) := by
  rw [← bitLength_ofNat, BitVec.ofNat_toNat, BitVec.setWidth_eq]

/-- The length field holds the low 64 bits of the bit length, so each of its bytes is one of the bit length's (R104). -/
theorem lengthField_getD (c : BitVec 64) {k : Nat} (hk : k < 8) :
    (le64bytes (bitLength c)).getD k 0 = BitVec.ofNat 8 (8 * c.toNat / 2 ^ (8 * k)) := by
  have hbyte : 8 * c.toNat % 2 ^ 64 / 2 ^ (8 * k) % 2 ^ 8 = 8 * c.toNat / 2 ^ (8 * k) % 2 ^ 8 := by
    interval_cases k <;> omega
  apply BitVec.eq_of_toNat_eq
  simpa [le64bytes_eq, hk, bitLength_eq] using hbyte

/-- Zeros, then the length field. -/
theorem zeros_append_getD (z j : Nat) (xs : List Byte) :
    (List.replicate z (0 : Byte) ++ xs).getD j 0 = if j < z then 0 else xs.getD (j - z) 0 := by
  simp only [List.getD_eq_getElem?_getD, List.getElem?_append, List.length_replicate]
  split <;> simp [*]

/-! ### Across the end of a block -/

/-- Bytes put into an empty buffer are its first ones. -/
theorem fill_of_empty {s : State} (hlevel : s.level = 0) (hbuf : s.buf = zeroBlock) (xs : List Byte) :
    fill s xs = blockAt xs 0 := by
  apply Vector.ext
  intro k hk
  rw [fill_getElem _ _ _ hk, blockAt_getElem _ _ _ hk]
  by_cases h : k < xs.length <;> simp [hlevel, hbuf, zeroBlock, h]

theorem pushBytes_across {s : State} {xs ys : List Byte} (h : s.level.toNat + xs.length = 64) (hys : ys.length < 64) :
    pushBytes (xs ++ ys) s =
      { s with st := compress s.st (fill s xs), buf := blockAt ys 0, level := BitVec.ofNat 6 ys.length } := by
  rw [pushBytes_append, pushBytes_fills xs s h, pushBytes_inside ys _ (by simpa), fill_of_empty (xs := ys)]
  · simp only [BitVec.ofNat_eq_ofNat, BitVec.toNat_ofNat, Nat.zero_mod, Nat.zero_add]
  · rfl
  · rfl

theorem pushBytes_fills_twice {s : State} {xs ys : List Byte} (h : s.level.toNat + xs.length = 64)
    (hys : ys.length = 64) :
    pushBytes (xs ++ ys) s =
      { s with st := compress (compress s.st (fill s xs)) (blockAt ys 0), buf := zeroBlock, level := 0 } := by
  rw [pushBytes_append, pushBytes_fills xs s h, pushBytes_fills ys _ (by simpa), fill_of_empty (xs := ys)]
  · rfl
  · rfl

/-! ### ABSORB -/

/-- Settles O18: the lanes are appended by `pushBytes_inside`. -/
theorem absorbInsideABlock : Obligations.AbsorbInsideABlock := by
  intro s n hd hn hroom
  refine ⟨fill s (lanes s.data n.toNat), fun k => ?_, ?_⟩
  · rw [Fin.getElem_fin, fill_getElem _ _ _ k.isLt, lanes_length, lanes_getD]
    by_cases hk : s.level.toNat ≤ k.val ∧ k.val < s.level.toNat + n.toNat
    · rw [if_pos hk, if_pos hk, if_pos (by omega)]
    · rw [if_neg hk, if_neg hk]
      rfl
  · rw [exec, execAbsorb_open (decide_eq_true hn) hd, absorbBytes_eq_pushBytes, pushBytes_inside _ _ (by simpa),
      lanes_length, respond]

/-- Settles O19: the lanes are split where they fill the block. -/
theorem absorbAcrossABlock : Obligations.AbsorbAcrossABlock := by
  intro s n hd hn hcross
  have hlevel := s.level.isLt
  obtain ⟨m, hm⟩ : ∃ m, 64 - s.level.toNat = m := ⟨_, rfl⟩
  refine ⟨fill s (lanes s.data m), blockAt ((lanes s.data n.toNat).drop m) 0, fun k => ?_, fun k => ?_, ?_⟩
  · have hk := k.isLt
    rw [Fin.getElem_fin, fill_getElem _ _ _ hk, lanes_length, lanes_getD]
    by_cases hheld : s.level.toNat ≤ k.val
    · rw [if_pos (by omega), if_pos (by omega), if_pos hheld]
    · rw [if_neg (by omega), if_neg hheld]
      rfl
  · rw [Fin.getElem_fin, blockAt_getElem _ _ _ k.isLt, Nat.mul_zero, Nat.zero_add, lanes_drop_getD, hm]
    by_cases hk : k.val < s.level.toNat + n.toNat - 64
    · rw [if_pos (by omega), if_pos hk]
    · rw [if_neg (by omega), if_neg hk]
  · have hlen : ((lanes s.data n.toNat).drop m).length = s.level.toNat + n.toNat - 64 := by simp; omega
    have hpush := pushBytes_across (s := s) (xs := lanes s.data m) (ys := (lanes s.data n.toNat).drop m)
      (by rw [lanes_length]; omega) (by omega)
    rw [← lanes_take s.data (show m ≤ n.toNat by omega), List.take_append_drop, hlen] at hpush
    rw [exec, execAbsorb_open (decide_eq_true hn) hd, absorbBytes_eq_pushBytes, lanes_length, hpush,
      lanes_take s.data (show m ≤ n.toNat by omega), respond]

/-! ### FINAL -/

/-- The padding's bytes in the open block, where 0x80 leaves no room for the length field (R105). -/
def padHead (level : BitVec 6) : List Byte := 0x80 :: List.replicate (63 - level.toNat) 0

/-- The padding's bytes in a second block. -/
def padTail (bits : BitVec 64) : List Byte := List.replicate 56 0 ++ le64bytes bits

theorem padHead_length (level : BitVec 6) : level.toNat + (padHead level).length = 64 := by
  have := level.isLt
  simp [padHead]
  omega

theorem padTail_length (bits : BitVec 64) : (padTail bits).length = 64 := by simp [padTail, le64bytes]

theorem pad_eq_padHead_append_padTail {level : BitVec 6} (h : 56 ≤ level.toNat) (bits : BitVec 64) :
    pad level bits = padHead level ++ padTail bits := by
  have hzeros : padZeros level = (63 - level.toNat) + 56 := by
    have := level.isLt
    rw [padZeros_eq]
    omega
  simp only [pad, padHead, padTail, hzeros, List.replicate_add, List.cons_append, List.append_assoc]

theorem padHead_getD (level : BitVec 6) (j : Nat) : (padHead level).getD j 0 = if j = 0 then 0x80 else 0 := by
  cases j with
  | zero => rfl
  | succ j =>
    rw [padHead, List.getD_cons_succ, List.getD_eq_getElem?_getD, List.getElem?_getD_replicate_default_eq]
    rfl

/-- Settles O20: the padding fills the block exactly. -/
theorem finalPadsIntoOneBlock : Obligations.FinalPadsIntoOneBlock := by
  intro s hd hlevel
  have hzeros : padZeros s.level = 55 - s.level.toNat := by rw [padZeros_eq]; omega
  have hlen : s.level.toNat + (pad s.level (bitLength s.count)).length = 64 := by rw [pad_length]; omega
  refine ⟨fill s (pad s.level (bitLength s.count)), fun k => ?_, ?_⟩
  · have hk := k.isLt
    rw [Fin.getElem_fin, fill_getElem _ _ _ hk, hlen]
    obtain hlt | heq | hgt := Nat.lt_trichotomy k.val s.level.toNat
    · rw [if_neg (by omega), if_pos hlt]
      rfl
    · rw [if_pos (by omega), if_neg (by omega), if_pos heq, heq, Nat.sub_self]
      rfl
    · obtain ⟨j, hj⟩ : ∃ j, k.val - s.level.toNat = j + 1 := ⟨k.val - s.level.toNat - 1, by omega⟩
      rw [if_pos (by omega), if_neg (by omega), if_neg (by omega), hj, pad, List.getD_cons_succ, zeros_append_getD,
        hzeros]
      by_cases hfield : k.val < 56
      · rw [if_pos (by omega), if_pos hfield]
      · rw [if_neg (by omega), if_neg hfield, ← lengthField_getD s.count (by omega)]
        congr 1
        omega
  · rw [exec, execFinal_open hd, finish, pushBytes_fills _ s hlen, setDone, respond]
    rfl

/-- Settles O21: the padding is split where it fills the block; its last 64 bytes fill the second. -/
theorem finalPadsIntoTwoBlocks : Obligations.FinalPadsIntoTwoBlocks := by
  intro s hd hlevel
  refine ⟨fill s (padHead s.level), blockAt (padTail (bitLength s.count)) 0, fun k => ?_, fun k => ?_, ?_⟩
  · have hk := k.isLt
    rw [Fin.getElem_fin, fill_getElem _ _ _ hk, padHead_length, padHead_getD]
    by_cases hheld : k.val < s.level.toNat
    · rw [if_neg (by omega), if_pos hheld]
      rfl
    · rw [if_pos (by omega), if_neg hheld]
      exact if_congr (by omega) rfl rfl
  · rw [Fin.getElem_fin, blockAt_getElem _ _ _ k.isLt, Nat.mul_zero, Nat.zero_add, padTail, zeros_append_getD]
    by_cases hfield : k.val < 56
    · rw [if_pos hfield, if_pos hfield]
    · rw [if_neg hfield, if_neg hfield, lengthField_getD s.count (by omega)]
  · rw [exec, execFinal_open hd, finish, pad_eq_padHead_append_padTail hlevel,
      pushBytes_fills_twice (padHead_length _) (padTail_length _), setDone, respond]
    rfl

/-- Settles O22: the number of zeros is `(119 - level) mod 64`, from which the lengths follow. -/
theorem padCompletesTheBlock : Obligations.PadCompletesTheBlock := by
  refine ⟨fun level bits => ⟨padZeros level, ?_, ?_, ?_, ?_⟩, paddedMessage_length_mod, fun s hd => ?_⟩
  · rw [padZeros_eq]
    omega
  · have := level.isLt
    rw [padZeros_eq]
    omega
  · rw [pad, le64bytes_eq]
    rfl
  · have := level.isLt
    rw [pad_length, padZeros_eq]
    split <;> omega
  · rw [exec, execFinal_open hd, finish, bitLength_eq, setDone, respond]

end Sys2Proof.Machine
end

section
/-! The invariants of R30: the reset state meets them and every step keeps them. -/

namespace Sys2Proof.Machine

/-! ### Items 2 to 4: buffer, level and count -/

/-- A state with the same buffer, level, count and DONE meets the same invariants. -/
theorem contextInv_congr {s t : State} (h : ContextInv s) (hbuf : t.buf = s.buf) (hlevel : t.level = s.level)
    (hcount : t.count = s.count) (hdone : t.done = s.done) : ContextInv t := by
  simpa only [ContextInv, BufferClean, LevelFollowsCount, EmptyWhenDone, hbuf, hlevel, hcount, hdone] using h

theorem respond_contextInv {s : State} (h : ContextInv s) (r : BusResponse) : ContextInv (respond r s) :=
  contextInv_congr h (by simp) (by simp) (by simp) (by simp)

/-- The initial context meets the invariants (R101). -/
theorem contextInv_of_initial {s : State} (hbuf : s.buf = zeroBlock) (hlevel : s.level = 0) (hcount : s.count = 0)
    (hdone : s.done = false) : ContextInv s := by
  refine ⟨fun k _ => ?_, fun _ => ?_, fun h => ?_⟩
  · simp [hbuf, zeroBlock]
  · simp [hlevel, hcount]
  · simp [hdone] at h

/-- The byte is put at the level, and the level rises above it or the buffer is emptied. -/
theorem pushByte_bufferClean {s : State} (h : BufferClean s) (x : Byte) : BufferClean (pushByte x s) := by
  intro k hk
  by_cases hfull : s.level = 63
  · simp [pushByte_full hfull, zeroBlock]
  · have hlevel : (s.level + 1).toNat = s.level.toNat + 1 := by bv_omega
    rw [pushByte_level, hlevel] at hk
    rw [pushByte_room hfull]
    simpa [Vector.getElem_set, show s.level.toNat ≠ k.val by omega] using h k (by omega)

theorem pushBytes_bufferClean {s : State} (h : BufferClean s) (xs : List Byte) : BufferClean (pushBytes xs s) := by
  induction xs generalizing s with
  | nil => exact h
  | cons x xs ih => exact ih (pushByte_bufferClean h x)

theorem pushBytes_level (xs : List Byte) (s : State) :
    (pushBytes xs s).level = s.level + BitVec.ofNat 6 xs.length := by
  induction xs generalizing s with
  | nil => simp
  | cons x xs ih => simp [ih, BitVec.ofNat_add, BitVec.add_assoc, BitVec.add_comm 1#6]

/-- ABSORB of an open context raises level and count together. -/
theorem absorbBytes_contextInv {s : State} (h : ContextInv s) (hd : s.done = false) (xs : List Byte) :
    ContextInv (absorbBytes xs s) := by
  obtain ⟨hclean, hlevel, -⟩ := h
  have hopen : (absorbBytes xs s).done = false := by simp [absorbBytes_frame, hd]
  refine ⟨?_, fun _ => ?_, fun hdone => ?_⟩
  · rw [absorbBytes_eq_pushBytes]
    exact pushBytes_bufferClean hclean xs
  · have hstart := hlevel hd
    rw [absorbBytes_level, absorbBytes_count, BitVec.toNat_add, BitVec.toNat_add, BitVec.toNat_ofNat, BitVec.toNat_ofNat]
    omega
  · rw [hopen] at hdone
    cases hdone

/-- The padding ends a block, so FINAL leaves the level 0 (R104, R105). -/
theorem finish_level (s : State) : (finish s).level = 0 := by
  have := s.level.isLt
  apply BitVec.eq_of_toNat_eq
  rw [finish, setDone_level, pushBytes_level, pad_length, padZeros_eq, BitVec.toNat_add, BitVec.toNat_ofNat]
  change _ = 0
  omega

theorem finish_contextInv {s : State} (h : BufferClean s) : ContextInv (finish s) := by
  refine ⟨?_, fun hopen => ?_, fun _ => finish_level s⟩
  · have hpad := pushBytes_bufferClean h (pad s.level (bitLength s.count))
    intro k hk
    rw [finish, setDone_level] at hk
    simpa only [finish, setDone_buf] using hpad k hk
  · simp [finish_frame] at hopen

theorem step_postNext_contextInv {e : HostEvent} {s t : State} (hinv : ContextInv s)
    (h : step (postNext e s) = .next t) : ContextInv t := by
  obtain ⟨-, rfl⟩ | ⟨-, rfl⟩ | ⟨-, -, rfl⟩ | ⟨n, -, hd, rfl⟩ | ⟨-, hbuf, hlevel, hcount, hdone⟩ := step_context_cases h
  · exact contextInv_of_initial (by simp) (by simp) (by simp) (by simp)
  · exact contextInv_of_initial (by simp) (by simp) (by simp) (by simp)
  · obtain ⟨hclean, -⟩ := hinv
    exact respond_contextInv (finish_contextInv hclean) .ok
  · exact respond_contextInv (absorbBytes_contextInv hinv hd _) .ok
  · exact contextInv_congr hinv hbuf hlevel hcount hdone

/-- Settles O48: an idle step changes nothing, and an event's step is one of `step_context_cases`. -/
theorem stepKeepsTheContextInvariant : Obligations.StepKeepsTheContextInvariant := by
  intro s t hinv hstep
  cases hp : s.pending with
  | nil =>
    rw [step_idle hp] at hstep
    exact next_inj hstep ▸ hinv
  | cons e rest =>
    rw [eq_postNext hp] at hstep
    have hinv' : ContextInv { s with pending := rest } := contextInv_congr hinv rfl rfl rfl rfl
    exact step_postNext_contextInv hinv' hstep

/-! ### Item 4: the message held -/

theorem holdsMessage_congr {s t : State} {m : List Byte} (h : HoldsMessage s m) (hsame : SameContext s t) :
    HoldsMessage t m := by
  obtain ⟨hst, hbuf, hlevel, hcount, hdone⟩ := hsame
  simpa only [HoldsMessage, hst, hbuf, hlevel, hcount, hdone] using h

theorem respond_holdsMessage {s : State} {m : List Byte} (h : HoldsMessage s m) (r : BusResponse) :
    HoldsMessage (respond r s) m := holdsMessage_congr h (by simp [SameContext])

theorem holdsMessage_open_iff {s : State} (hd : s.done = false) (m : List Byte) :
    HoldsMessage s m ↔ s.count = BitVec.ofNat 64 m.length ∧ Buffers s m := by
  simp [HoldsMessage, Buffers, hd]

theorem holdsMessage_done_iff {s : State} (hd : s.done = true) (m : List Byte) :
    HoldsMessage s m ↔
      s.count = BitVec.ofNat 64 m.length ∧ s.st = md5Words m ∧ s.level = 0 ∧ s.buf = zeroBlock := by
  simp [HoldsMessage, hd]

/-- The initial context holds the empty message (R101). -/
theorem holdsMessage_of_initial {s : State} (hst : s.st = iv) (hbuf : s.buf = zeroBlock) (hlevel : s.level = 0)
    (hcount : s.count = 0) (hdone : s.done = false) : HoldsMessage s [] :=
  (holdsMessage_open_iff hdone []).mpr ⟨hcount, .empty hst hlevel hbuf⟩

theorem absorbBytes_holdsMessage {s : State} {m : List Byte} (h : HoldsMessage s m) (hd : s.done = false)
    (xs : List Byte) : HoldsMessage (absorbBytes xs s) (m ++ xs) := by
  obtain ⟨hcount, hbuffers⟩ := (holdsMessage_open_iff hd m).mp h
  refine (holdsMessage_open_iff (by simp [absorbBytes_frame, hd]) _).mpr ⟨?_, ?_⟩
  · rw [absorbBytes_count, hcount, List.length_append, BitVec.ofNat_add]
  · rw [absorbBytes_eq_pushBytes]
    exact hbuffers.pushAll xs

/-- What FINAL appends to the bytes held makes the padded message (R104, R133). -/
theorem pushBytes_pad_buffers {s : State} {m : List Byte} (hbuffers : Buffers s m)
    (hcount : s.count = BitVec.ofNat 64 m.length) :
    Buffers (pushBytes (pad s.level (bitLength s.count)) s) (paddedMessage m) := by
  have hall := hbuffers.pushAll (pad s.level (bitLength s.count))
  obtain ⟨-, hlevel, -⟩ := hbuffers
  rw [hcount, bitLength_ofNat, hlevel, ← paddedMessage] at hall
  rwa [hcount, bitLength_ofNat, hlevel]

theorem finish_holdsMessage {s : State} {m : List Byte} (h : HoldsMessage s m) (hd : s.done = false) :
    HoldsMessage (finish s) m := by
  obtain ⟨hcount, hbuffers⟩ := (holdsMessage_open_iff hd m).mp h
  obtain ⟨hst, -, hbuf⟩ := pushBytes_pad_buffers hbuffers hcount
  have hwhole : (paddedMessage m).length ≤ 64 * ((paddedMessage m).length / 64) := by
    have := paddedMessage_length_mod m
    omega
  refine (holdsMessage_done_iff (by simp [finish]) m).mpr ⟨by simp [finish_frame, hcount], ?_, finish_level s, ?_⟩
  · rw [finish, setDone_st, hst, md5Words]
  · rw [finish, setDone_buf, hbuf, blockAt_past hwhole]

/-- Settles O47: reset is the initial context of R101. -/
theorem resetMeetsTheContextInvariant : Obligations.ResetMeetsTheContextInvariant :=
  ⟨contextInv_of_initial rfl rfl rfl rfl, holdsMessage_of_initial rfl rfl rfl rfl rfl⟩

/-- An event that writes no other message leaves the message held (R30). -/
theorem step_holds_same {e : HostEvent} {s t : State} {m : List Byte} (hm : HoldsMessage s m)
    (h : step (postNext e s) = .next t) (habsorb : s.done = true ∨ ∀ n, ¬ EventIssues e (.absorb n))
    (hinit : ¬ EventIssues e .init) (hreset : e ≠ .reset) : HoldsMessage t m := by
  obtain ⟨he, -⟩ | ⟨he, -⟩ | ⟨-, hd, rfl⟩ | ⟨n, he, hd, -⟩ | hsame := step_context_cases h
  · exact absurd he hreset
  · exact absurd he hinit
  · exact respond_holdsMessage (finish_holdsMessage hm hd) .ok
  · obtain hdone | hno := habsorb
    · simp [hd] at hdone
    · exact absurd he (hno n)
  · exact holdsMessage_congr hm hsame

/-- An ABSORB that is issued has its N in range (R75). -/
theorem countInRange_of_issues {e : HostEvent} {n : BitVec 3} (he : EventIssues e (.absorb n)) :
    countInRange n = true := by
  obtain ⟨_, _, -, -, hw⟩ := he
  exact decodeCommand_absorb hw

theorem step_final_done {e : HostEvent} {s t : State} (he : EventIssues e .final) (h : step (postNext e s) = .next t) :
    t.done = true := by
  rw [step_of_issues he] at h
  cases hd : s.done with
  | true =>
    obtain rfl := next_inj ((execFinal_done hd).symm.trans h)
    simp [hd]
  | false =>
    obtain rfl := next_inj ((execFinal_open hd).symm.trans h)
    simp [finish]

/-- Settles O49: an open context's ABSORB appends its lanes, INIT and reset write the initial context, and FINAL the digest
of the message held; every other event leaves the context alone. -/
theorem stepKeepsTheHeldMessage : Obligations.StepKeepsTheHeldMessage := by
  intro s t e m hm h
  refine ⟨fun hd n he => ?_, ?_, step_holds_same hm h, fun he => step_final_done he h⟩
  · rw [step_of_issues he] at h
    obtain rfl := next_inj ((execAbsorb_open (countInRange_of_issues he) hd).symm.trans h)
    exact respond_holdsMessage (absorbBytes_holdsMessage hm hd _) .ok
  · rintro (he | rfl)
    · rw [step_of_issues he] at h
      obtain rfl := next_inj ((exec_init_next s).symm.trans h)
      exact holdsMessage_of_initial (by simp) (by simp) (by simp) (by simp) (by simp)
    · obtain rfl := next_inj h
      exact holdsMessage_of_initial (by simp) (by simp) (by simp) (by simp) (by simp)

end Sys2Proof.Machine
end

section
/-! Messages in pieces (R80, R102, R108): absorbed one after another they are absorbed whole, and `hash` cuts its string
into such pieces. -/

namespace Sys2Proof.Machine

/-! ### Any split of a message -/

/-- The instructions that absorb the pieces in order: each a word and how many of its lanes are bytes of the message. -/
def pieceProgram (pieces : List (Word × BitVec 3)) : List Instr := pieces.flatMap fun p => pushn p.1 p.2

/-- The message the pieces make up. -/
def pieceBytes (pieces : List (Word × BitVec 3)) : List Byte := pieces.flatMap fun p => lanes p.1 p.2.toNat

/-- The error flags are as they were. -/
def SameFlags (s t : State) : Prop := t.errCmd = s.errCmd ∧ t.errSeq = s.errSeq

theorem SameFlags.trans {s t u : State} (h : SameFlags s t) (h' : SameFlags t u) : SameFlags s u := by
  obtain ⟨hcmd, hseq⟩ := h
  obtain ⟨hcmd', hseq'⟩ := h'
  exact ⟨hcmd'.trans hcmd, hseq'.trans hseq⟩

theorem runInstrs_pushn {s : State} {m : List Byte} (hm : HoldsMessage s m) (hd : s.done = false) (v : Word)
    {n : BitVec 3} (hn : n.toNat ≤ 4) :
    ∃ t, runInstrs (pushn v n) s = .next t ∧ t.done = false ∧ HoldsMessage t (m ++ lanes v n.toNat) ∧ SameFlags s t := by
  have hstaged : HoldsMessage (respond .ok (storeData v s)) m := holdsMessage_congr hm (by simp [SameContext])
  have habsorbed := absorbBytes_holdsMessage hstaged (by simpa using hd) (lanes v n.toNat)
  refine ⟨_, ?_, ?_, respond_holdsMessage habsorbed .ok, ?_⟩
  · have habsorb := execAbsorb_open (n := n) (s := respond .ok (storeData v s)) (decide_eq_true hn) (by simpa using hd)
    rw [respond_data, storeData_data] at habsorb
    rw [pushn, runInstrs_cons_next (exec_wrData_next v s), runInstrs_singleton_next (i := .absorb n) habsorb]
  · simp [absorbBytes_frame, hd]
  · simp [SameFlags, absorbBytes_frame]

theorem runInstrs_pieceProgram {pieces : List (Word × BitVec 3)} (hp : ∀ p ∈ pieces, p.2.toNat ≤ 4) {s : State}
    {m : List Byte} (hm : HoldsMessage s m) (hd : s.done = false) :
    ∃ t, runInstrs (pieceProgram pieces) s = .next t ∧ t.done = false ∧
      HoldsMessage t (m ++ pieceBytes pieces) ∧ SameFlags s t := by
  induction pieces generalizing s m with
  | nil => exact ⟨s, rfl, hd, by simpa [pieceBytes] using hm, rfl, rfl⟩
  | cons p pieces ih =>
    obtain ⟨hhead, htail⟩ := List.forall_mem_cons.mp hp
    obtain ⟨u, hu, hud, hum, huf⟩ := runInstrs_pushn hm hd p.1 hhead
    obtain ⟨t, ht, htd, htm, htf⟩ := ih htail hum hud
    refine ⟨t, ?_, htd, ?_, huf.trans htf⟩
    · rw [pieceProgram, List.flatMap_cons, runInstrs_append_next hu]
      exact ht
    · rwa [List.append_assoc] at htm

/-- Absorbed after INIT and finalized, the pieces leave the digest of their message held (R108). -/
theorem runInstrs_stream {pieces : List (Word × BitVec 3)} (hp : ∀ p ∈ pieces, p.2.toNat ≤ 4) (s : State) :
    ∃ t, runInstrs ([.init] ++ pieceProgram pieces ++ [.final]) s = .next t ∧ t.done = true ∧
      HoldsMessage t (pieceBytes pieces) ∧ SameFlags s t := by
  have hinit : HoldsMessage (respond .ok (initContext s)) [] :=
    holdsMessage_of_initial (by simp) (by simp) (by simp) (by simp) (by simp)
  obtain ⟨u, hu, hud, hum, huf⟩ := runInstrs_pieceProgram hp hinit (by simp)
  have hflags : SameFlags s u := SameFlags.trans (by simp [SameFlags]) huf
  refine ⟨respond .ok (finish u), ?_, by simp [finish_frame], respond_holdsMessage (finish_holdsMessage hum hud) .ok,
    hflags.trans (by simp [SameFlags, finish_frame])⟩
  rw [List.append_assoc, List.singleton_append, runInstrs_cons_next (exec_init_next s), runInstrs_append_next hu,
    runInstrs_singleton_next (i := .final) (execFinal_open hud)]

set_option maxRecDepth 10000 in
/-- V-L1-1: MD5 of the empty string. -/
theorem digestBytes_md5Words_nil :
    digestBytes (md5Words []) =
      [0xD4, 0x1D, 0x8C, 0xD9, 0x8F, 0x00, 0xB2, 0x04, 0xE9, 0x80, 0x09, 0x98, 0xEC, 0xF8, 0x42, 0x7E] := by
  decide

/-- Settles O50: the finalized context holds the message of the pieces, and no pieces make the empty one. -/
theorem streamingIsTransparent : Obligations.StreamingIsTransparent := by
  refine ⟨fun pieces s hp => ?_, fun s => ?_⟩
  · obtain ⟨t, ht, hd, hm, -⟩ := runInstrs_stream hp s
    obtain ⟨hcount, hst, -⟩ := (holdsMessage_done_iff hd _).mp hm
    exact ⟨t, ht, hd, hst, hcount⟩
  · obtain ⟨t, ht, hd, hm, -⟩ := runInstrs_stream (pieces := []) (by simp) s
    obtain ⟨-, hst, -⟩ := (holdsMessage_done_iff hd _).mp hm
    exact ⟨t, ht, hd, hst ▸ digestBytes_md5Words_nil⟩

/-! ### The pieces of `hash` -/

/-- The pieces of a string in `hash`: whole words, then the short tail where there is one (R80). -/
def hashPieces (m : List Byte) : List (Word × BitVec 3) :=
  (List.range (m.length / 4)).map (fun q => (wordAt m q, 4))
    ++ if m.length % 4 = 0 then [] else [(wordAt m (m.length / 4), BitVec.ofNat 3 (m.length % 4))]

theorem hashProgram_eq (m : List Byte) : hashProgram m = [.init] ++ pieceProgram (hashPieces m) ++ [.final] := by
  have hwords : pieceProgram ((List.range (m.length / 4)).map fun q => (wordAt m q, 4)) =
      (List.range (m.length / 4)).flatMap fun q => pushw (wordAt m q) := by
    rw [pieceProgram, List.flatMap_map]
    rfl
  rw [hashProgram, ← hwords, hashPieces, pieceProgram, pieceProgram, List.flatMap_append, ← List.append_assoc]
  split <;> simp

theorem hashPieces_count (m : List Byte) : ∀ p ∈ hashPieces m, p.2.toNat ≤ 4 := by
  intro p hp
  rw [hashPieces, List.mem_append] at hp
  obtain hword | htail := hp
  · obtain ⟨q, -, rfl⟩ := List.mem_map.mp hword
    exact Nat.le_refl 4
  · split_ifs at htail
    · cases htail
    · obtain rfl := List.mem_singleton.mp htail
      rw [BitVec.toNat_ofNat]
      omega

theorem lane_wordAt (m : List Byte) (q : Nat) {k : Nat} (hk : k < 4) : lane (wordAt m q) k = m.getD (4 * q + k) 0 := by
  have hlane : (lanes (wordAt m q) 4)[k]? = some (lane (wordAt m q) k) := by simp [lanes, hk]
  rw [wordAt, lanes_le32] at hlane
  interval_cases k <;> exact (Option.some.inj hlane).symm

/-- The lanes of word `q` are the string's bytes from `4q` on. -/
theorem lanes_wordAt {m : List Byte} {q n : Nat} (hn : n ≤ 4) (hm : 4 * q + n ≤ m.length) :
    lanes (wordAt m q) n = (m.drop (4 * q)).take n := by
  apply List.ext_getElem
  · simp
    omega
  · intro k hk _
    rw [lanes_length] at hk
    have hbyte : lane (wordAt m q) k = m[4 * q + k] := by
      rw [lane_wordAt m q (by omega), List.getD_eq_getElem _ _ (by omega)]
    simp [lanes, hbyte]

theorem flatMap_lanes_wordAt {m : List Byte} {k : Nat} (hk : 4 * k ≤ m.length) :
    ((List.range k).flatMap fun q => lanes (wordAt m q) 4) = m.take (4 * k) := by
  induction k with
  | zero => simp
  | succ k ih =>
    rw [List.range_succ, List.flatMap_append, ih (by omega), List.flatMap_singleton,
      lanes_wordAt (Nat.le_refl 4) (by omega), ← List.take_add, Nat.mul_succ]

theorem pieceBytes_hashPieces (m : List Byte) : pieceBytes (hashPieces m) = m := by
  have hwords : pieceBytes ((List.range (m.length / 4)).map fun q => (wordAt m q, 4)) = m.take (4 * (m.length / 4)) := by
    rw [pieceBytes, List.flatMap_map]
    exact flatMap_lanes_wordAt (by omega)
  rw [hashPieces, pieceBytes, List.flatMap_append, ← pieceBytes, hwords]
  by_cases hrest : m.length % 4 = 0
  · rw [if_pos hrest, List.flatMap_nil, List.append_nil, List.take_of_length_le (by omega)]
  · have htail : lanes (wordAt m (m.length / 4)) (m.length % 4) = m.drop (4 * (m.length / 4)) := by
      rw [lanes_wordAt (by omega) (by omega), List.take_of_length_le (by simp; omega)]
    have hcount : (BitVec.ofNat 3 (m.length % 4)).toNat = m.length % 4 := by rw [BitVec.toNat_ofNat]; omega
    rw [if_neg hrest, List.flatMap_singleton, hcount, htail, List.take_append_drop]

/-- Settles O51: `hash` streams pieces that make up its string. -/
theorem hashProgramComputesMd5 : Obligations.HashProgramComputesMd5 := by
  intro m s
  obtain ⟨t, ht, hd, hm, hcmd, hseq⟩ := runInstrs_stream (hashPieces_count m) s
  rw [← hashProgram_eq] at ht
  rw [pieceBytes_hashPieces] at hm
  obtain ⟨hcount, hst, hlevel, -⟩ := (holdsMessage_done_iff hd m).mp hm
  exact ⟨t, ht, hd, hlevel, hcount, hcmd, hseq, by rw [hst, md5]⟩

end Sys2Proof.Machine
end

section
/-! What the meanings do not look at: DATA's high lanes and the queue in an append, the buffer's contents outside ABSORB and
FINAL (R23, R56, R59, R177). -/

namespace Sys2Proof.Machine

/-! ### DATA and the queue at other values -/

/-- The state with DATA and the queue at given values; an append looks at neither. -/
def setHost (v : Word) (q : List HostEvent) (s : State) : State := { s with data := v, pending := q }

section
variable (v : Word) (q : List HostEvent) (s : State)

@[simp] theorem setHost_level : (setHost v q s).level = s.level := by unfold setHost; rfl
@[simp] theorem setHost_count : (setHost v q s).count = s.count := by unfold setHost; rfl
@[simp] theorem setHost_done : (setHost v q s).done = s.done := by unfold setHost; rfl
@[simp] theorem setHost_data : (setHost v q s).data = v := by unfold setHost; rfl

theorem respond_setHost (r : BusResponse) : respond r (setHost v q s) = setHost v q (respond r s) := by
  unfold respond setHost; rfl

theorem countByte_setHost : countByte (setHost v q s) = setHost v q (countByte s) := by
  unfold countByte setHost; rfl

theorem setDone_setHost : setDone (setHost v q s) = setHost v q (setDone s) := by
  unfold setDone setHost; rfl

theorem recordErrCmd_setHost : recordErrCmd (setHost v q s) = setHost v q (recordErrCmd s) := by
  unfold recordErrCmd setHost; rfl

theorem recordErrSeq_setHost : recordErrSeq (setHost v q s) = setHost v q (recordErrSeq s) := by
  unfold recordErrSeq setHost; rfl

theorem pushByte_setHost (x : Byte) : pushByte x (setHost v q s) = setHost v q (pushByte x s) := by
  by_cases h : s.level = 63
  · rw [pushByte_full h, pushByte_full ((setHost_level v q s).trans h)]
    unfold processBlock putByte setHost; rfl
  · rw [pushByte_room h, pushByte_room ((setHost_level v q s).trans_ne h)]
    unfold putByte setHost; rfl

theorem pushBytes_setHost (xs : List Byte) : pushBytes xs (setHost v q s) = setHost v q (pushBytes xs s) := by
  induction xs generalizing s with
  | nil => rfl
  | cons x xs ih => rw [pushBytes_cons, pushBytes_cons, pushByte_setHost, ih]

theorem absorbBytes_setHost (xs : List Byte) : absorbBytes xs (setHost v q s) = setHost v q (absorbBytes xs s) := by
  induction xs generalizing s with
  | nil => rfl
  | cons x xs ih =>
    rw [absorbBytes_cons, absorbBytes_cons, absorbByte, countByte_setHost, pushByte_setHost, ih, absorbByte]

theorem finish_setHost : finish (setHost v q s) = setHost v q (finish s) := by
  rw [finish, setHost_level, setHost_count, pushBytes_setHost, setDone_setHost, finish]

end

/-! ### ABSORB and the lanes it does not take -/

theorem lanes_congr {v w : Word} {n : Nat} (h : ∀ k, k < n → v.extractLsb' (8 * k) 8 = w.extractLsb' (8 * k) 8) :
    lanes v n = lanes w n :=
  List.map_congr_left fun k hk => h k (List.mem_range.mp hk)

/-- ABSORB with DATA and the queue at other values, as long as the lanes it takes are the same. -/
theorem exec_absorb_setHost {n : BitVec 3} {s : State} {v : Word} (hlanes : lanes v n.toNat = lanes s.data n.toNat)
    (q : List HostEvent) : ∃ t, exec (.absorb n) s = .next t ∧ t.pending = s.pending ∧ t.data = s.data ∧
      exec (.absorb n) (setHost v q s) = .next (setHost v q t) := by
  cases hn : countInRange n with
  | false =>
    refine ⟨_, execAbsorb_out hn s, by simp, by simp, (execAbsorb_out hn _).trans ?_⟩
    rw [recordErrCmd_setHost, respond_setHost]
  | true =>
    cases hd : s.done with
    | true =>
      refine ⟨_, execAbsorb_done hn hd, by simp, by simp, (execAbsorb_done hn (by simpa using hd)).trans ?_⟩
      rw [recordErrSeq_setHost, respond_setHost]
    | false =>
      refine ⟨_, execAbsorb_open hn hd, by simp [absorbBytes_frame], by simp [absorbBytes_frame],
        (execAbsorb_open hn (by simpa using hd)).trans ?_⟩
      rw [setHost_data, hlanes, absorbBytes_setHost, respond_setHost]

/-- Settles O35: the bytes absorbed are the lanes taken, and an append does not look at DATA. -/
theorem absorbIgnoresTheHighLanes : Obligations.AbsorbIgnoresTheHighLanes := by
  intro s n v h
  obtain ⟨t, ht, hpending, -, ht'⟩ := exec_absorb_setHost (lanes_congr h) s.pending
  refine ⟨t, ht, ht'.trans ?_⟩
  rw [setHost, ← hpending]

/-! ### Programs queued -/

/-- The state with the queue at a given value. -/
def setPending (q : List HostEvent) (s : State) : State := { s with pending := q }

theorem setPending_eq_setHost (q : List HostEvent) (s : State) : setPending q s = setHost s.data q s := rfl

/-- No command looks at the queue. -/
theorem exec_command_setPending {c : Command} {s t : State} (hw : c.wf = true) (q : List HostEvent)
    (h : exec c.toInstr s = .next t) : exec c.toInstr (setPending q s) = .next (setPending q t) := by
  cases c with
  | nop | init | clrerr =>
    rw [next_inj h]
    rfl
  | absorb n =>
    obtain ⟨u, hu, -, hdata, hu'⟩ := exec_absorb_setHost (n := n) (s := s) rfl q
    rw [next_inj (hu.symm.trans h), setPending_eq_setHost, setPending_eq_setHost, hdata]
    exact hu'
  | final =>
    cases hd : s.done with
    | true =>
      rw [next_inj ((execFinal_done hd).symm.trans h)]
      exact execFinal_done hd
    | false =>
      rw [next_inj ((execFinal_open hd).symm.trans h), setPending_eq_setHost, setPending_eq_setHost]
      refine (execFinal_open (by simpa using hd)).trans ?_
      rw [finish_setHost, respond_setHost, respond_data]
      simp [finish_frame]

/-- No instruction looks at the queue. -/
theorem exec_setPending {i : Instr} {s t : State} (hw : WellFormed i) (q : List HostEvent) (h : exec i s = .next t) :
    exec i (setPending q s) = .next (setPending q t) := by
  cases i with
  | rdId | rdStatus | rdCmd | rdData | rdCountLo | rdCountHi | rdDigest _ | wrData _ =>
    rw [next_inj h]
    rfl
  | wrCmd w =>
    cases hc : decodeCommand w with
    | ok c =>
      rw [exec_wrCmd_of_decode hc] at h ⊢
      exact exec_command_setPending (wf_of_decodeCommand hc) q h
    | error r =>
      rw [next_inj ((execWrCmd_error hc s).symm.trans h)]
      exact execWrCmd_error hc _
  | nop => exact exec_command_setPending (c := .nop) hw q h
  | init => exact exec_command_setPending (c := .init) hw q h
  | absorb n => exact exec_command_setPending (c := .absorb n) hw q h
  | final => exact exec_command_setPending (c := .final) hw q h
  | clrerr => exact exec_command_setPending (c := .clrerr) hw q h

/-- Bit W and OFF are the whole descriptor (R71). -/
theorem descriptorOf_fields : ∀ d : BitVec 7, descriptorOf (descriptorDir d) (descriptorOff d) = d := by decide

/-- The access that carries a form runs the instruction the form decodes to (R70, R90). -/
theorem step_toAccess {f : Form} {i : Instr} (h : decode f = .ok i) (s : State) :
    step (postNext (.access f.toAccess) s) = exec i s := by
  cases f with
  | formB d v =>
    cases hd : decodeDescriptor d v with
    | error r => simp [decode, hd] at h
    | ok j =>
      obtain rfl : j = i := by simpa [decode, hd] using h
      have ha : decodeAccess (Form.formB d v).toAccess = .ok j := (decodeAccess_eq (descriptorOf_fields d) v).trans hd
      rw [step_postNext, performEvent_access ha]
  | formC w =>
    cases hw : decodeCommand w with
    | error r => simp [decode, hw] at h
    | ok c =>
      obtain rfl : c.toInstr = i := by simpa [decode, hw] using h
      exact step_regWrite_cmd_of_decode hw s

theorem step_accessOf {i : Instr} (h : WellFormed i) (s : State) :
    step (postNext (.access (accessOf i)) s) = exec i s :=
  step_toAccess (decodeOfEncodeIsTheInstruction i h) s

/-- Settles O44: the event is taken off the queue and decoded, and an encoding decodes to its instruction. -/
theorem stepRunsTheDecodedInstruction : Obligations.StepRunsTheDecodedInstruction := by
  refine ⟨fun s a rest i hpending ha => ?_, fun s i h => step_accessOf h s, fun s h => step_idle h⟩
  calc step s
    _ = step (postNext (.access a) { s with pending := rest }) := congrArg step (eq_postNext hpending)
    _ = exec i { s with pending := rest } := by rw [step_postNext, performEvent_access ha]

theorem run_succ {s t : State} (h : step s = .next t) (k : Nat) :
    Host.Core.run core (k + 1) s = Host.Core.run core k t := by
  have hstep : core.step s = .next t := h
  simp [Host.Core.run, hstep]

/-- Settles O46: by induction on the program; each step runs its instruction, which does not look at the queue and keeps
it. -/
theorem issuedProgramRunsInOrder : Obligations.IssuedProgramRunsInOrder := by
  intro p s hp
  induction p generalizing s with
  | nil => rfl
  | cons i p ih =>
    obtain ⟨hi, hrest⟩ := List.forall_mem_cons.mp hp
    obtain ⟨t, ht, -⟩ := everyInstructionCompletes i s hi
    have hpending : t.pending = s.pending := step_keeps_queue ((step_accessOf hi s).trans ht)
    have hstep : step { s with pending := eventsOf (i :: p) ++ s.pending } =
        .next (setPending (eventsOf p ++ t.pending) t) := by
      rw [hpending]
      exact (step_accessOf hi _).trans (exec_setPending hi (eventsOf p ++ s.pending) ht)
    rw [List.length_cons, run_succ hstep, runInstrs_cons_next ht]
    exact ih t hrest

/-! ### The buffer at other contents -/

/-- The state with the buffer at given contents. -/
def setBuf (b : Block) (s : State) : State := { s with buf := b }

/-- The commands that are no update write the buffer whole or not at all (R23). -/
theorem exec_command_setBuf {c : Command} {s t : State} (hno : ¬ IsUpdate c) (b : Block) (h : exec c.toInstr s = .next t) :
    ∃ b', exec c.toInstr (setBuf b s) = .next (setBuf b' t) ∧ (b' = b ∨ b' = t.buf) := by
  cases c with
  | nop | clrerr =>
    rw [next_inj h]
    exact ⟨b, rfl, .inl rfl⟩
  | init =>
    rw [next_inj h]
    exact ⟨zeroBlock, rfl, .inr rfl⟩
  | absorb n => exact absurd (.inr ⟨n, rfl⟩) hno
  | final => exact absurd (.inl rfl) hno

/-- An access that carries no update answers alike whatever the buffer holds. -/
theorem exec_access_setBuf {a : BusAccess} {i : Instr} {s t : State} (hi : decodeAccess a = .ok i)
    (hno : ∀ w c, i = .wrCmd w → decodeCommand w = .ok c → ¬ IsUpdate c) (b : Block) (h : exec i s = .next t) :
    ∃ b', exec i (setBuf b s) = .next (setBuf b' t) ∧ (b' = b ∨ b' = t.buf) := by
  cases i with
  | rdId | rdStatus | rdCmd | rdData | rdCountLo | rdCountHi | rdDigest _ | wrData _ =>
    rw [next_inj h]
    exact ⟨b, rfl, .inl rfl⟩
  | wrCmd w =>
    cases hc : decodeCommand w with
    | ok c =>
      rw [exec_wrCmd_of_decode hc] at h ⊢
      exact exec_command_setBuf (hno w c rfl hc) b h
    | error r =>
      rw [next_inj ((execWrCmd_error hc s).symm.trans h)]
      exact ⟨b, execWrCmd_error hc _, .inl rfl⟩
  | nop | init | absorb _ | final | clrerr => simpa using decodeAccess_cases hi

/-- Settles O36: reset writes the buffer, and an access that is no update writes it whole or not at all. -/
theorem bufferContentsAreHidden : Obligations.BufferContentsAreHidden := by
  intro e s t b habsorb hfinal h
  rw [step_postNext] at h ⊢
  cases e with
  | accessDuringReset a => cases h
  | reset =>
    rw [next_inj h]
    exact ⟨zeroBlock, rfl, .inr rfl⟩
  | access a =>
    cases hi : decodeAccess a with
    | error reason =>
      rw [performEvent, hi] at h
      cases h
    | ok i =>
      rw [performEvent_access hi] at h ⊢
      refine exec_access_setBuf hi ?_ b h
      rintro w c rfl hc (rfl | ⟨n, rfl⟩)
      · exact hfinal ⟨a, w, rfl, hi, hc⟩
      · exact habsorb n ⟨a, w, rfl, hi, hc⟩

end Sys2Proof.Machine
end

section
/-! Instances and byte lanes (R50, R52, R55, R164). -/

namespace Sys2Proof.Machine

/-! ### Windows -/

theorem inWindow_of_ownerOf {n i addr : Nat} (h : ownerOf n addr = some i) : inWindow i addr = true := by
  simpa using List.find?_some h

/-- An event of core `i` puts that core's next state in its place (R164). -/
theorem platformEvent_eq_some {i : Nat} {e : HostEvent} {p q : Platform} {r : HostReply}
    (h : platformEvent i e p = some (r, q)) : ∃ t, q = p.set i t := by
  unfold platformEvent at h
  split at h
  · cases h
  · split at h
    · cases h
    · next t _ =>
      cases h
      exact ⟨t, rfl⟩

/-- An access changes at most the core whose window holds its address (R50). -/
theorem platformAccess_eq_some {dir : Dir} {addr width : Nat} {v : Word} {p q : Platform} {r : Option HostReply}
    (h : platformAccess dir addr width v p = some (r, q)) :
    q = p ∨ ∃ i t, inWindow i addr = true ∧ q = p.set i t := by
  unfold platformAccess at h
  split at h
  · cases h
    exact .inl rfl
  · next i howner =>
    split at h
    · cases h
    · next hevent =>
      cases h
      obtain ⟨t, ht⟩ := platformEvent_eq_some hevent
      exact .inr ⟨i, t, inWindow_of_ownerOf howner, ht⟩

/-- Settles O37: an address lies in one window at most, and an event writes one place of the list. -/
theorem instancesAreIndependent : Obligations.InstancesAreIndependent := by
  refine ⟨fun i j addr => inWindow_unique, fun i => Nat.mul_mod_right 64 _, fun dir addr width v p q r h => ?_,
    fun i e p q r h j hj => ?_⟩
  · obtain rfl | ⟨i, t, hi, rfl⟩ := platformAccess_eq_some h
    · exact ⟨rfl, fun _ _ => rfl⟩
    · refine ⟨List.length_set, fun j hj => List.getElem?_set_ne ?_⟩
      rintro rfl
      rw [hi] at hj
      cases hj
  · obtain ⟨t, rfl⟩ := platformEvent_eq_some h
    exact List.getElem?_set_ne hj.symm

/-! ### Bytes and values -/

/-- Four bytes in a row of a wider value are the word that stands there. -/
theorem le32_extractLsb' {w : Nat} (v : BitVec w) (i : Nat) :
    le32 (v.extractLsb' i 8) (v.extractLsb' (i + 8) 8) (v.extractLsb' (i + 16) 8) (v.extractLsb' (i + 24) 8) =
      v.extractLsb' i 32 := by
  rw [le32, BitVec.extractLsb'_append_extractLsb'_eq_extractLsb' (by omega),
    BitVec.extractLsb'_append_extractLsb'_eq_extractLsb' (by omega),
    BitVec.extractLsb'_append_extractLsb'_eq_extractLsb' (by omega)]

theorem le32_lanes (v : Word) : le32 (lane v 0) (lane v 1) (lane v 2) (lane v 3) = v := by
  have h := le32_extractLsb' v 0
  rwa [BitVec.extractLsb'_eq_self] at h

theorem lane_eq_ofNat (v : Word) (k : Nat) : lane v k = BitVec.ofNat 8 (v.toNat / 2 ^ (8 * k)) := by
  rw [lane, BitVec.extractLsb', Nat.shiftRight_eq_div_pow]

theorem byteAt_busBytes (addr : Nat) (v : Word) {k : Nat} (hk : k < 4) :
    byteAt (busBytes addr v) (addr + k) = some (lane v k) := by
  rw [busBytes_eq]
  interval_cases k <;> simp [byteAt]

theorem wordFromBus_of_byteAt {bs : BusBytes} {addr : Nat} {v : Word}
    (h : ∀ k : Fin 4, byteAt bs (addr + k.val) = some (lane v k.val)) : wordFromBus bs addr = some v := by
  have h0 : byteAt bs addr = some (lane v 0) := h 0
  have h1 : byteAt bs (addr + 1) = some (lane v 1) := h 1
  have h2 : byteAt bs (addr + 2) = some (lane v 2) := h 2
  have h3 : byteAt bs (addr + 3) = some (lane v 3) := h 3
  simp only [wordFromBus, h0, h1, h2, h3, le32_lanes]

/-! ### Transfers -/

/-- A step that completes is what the host sees of a register of core `i` (R50, R164). -/
theorem platformAccess_of_step {p : Platform} {i : Nat} {s t : State} {dir : Dir} {off : BitVec 6} {v : Word}
    (hi : p[i]? = some s)
    (h : step (postNext (.access { dir := dir, off := off, width := 32, value := v }) s) = .next t) :
    platformAccess dir (registerAddress i off) 32 v p = some (some (.completed t.response), p.set i t) := by
  obtain ⟨hlt, -⟩ := List.getElem?_eq_some_iff.mp hi
  rw [platformAccess_register hlt, platformEvent, hi]
  simp only [hostPerform, h, Option.map_some]

theorem platformReadBytes_of_step {p : Platform} {i : Nat} {s : State} {off : BitVec 6} {w : Word}
    (hi : p[i]? = some s) (h : step (postNext (.access (regRead off)) s) = .next (respond (.data w) s)) :
    platformReadBytes (registerAddress i off) p =
      some (busBytes (registerAddress i off) w, p.set i (respond (.data w) s)) := by
  rw [platformReadBytes, platformAccess_of_step hi h, respond_response]
  rfl

/-- Where the four DIGEST registers stand (R31). -/
def digestOff (n : BitVec 2) : BitVec 6 := 0x20 + (n.setWidth 6 <<< 2)

theorem digestOff_toNat : ∀ n, (digestOff n).toNat = 0x20 + 4 * n.toNat := by decide

theorem decodeAccess_digestOff : ∀ n, decodeAccess (regRead (digestOff n)) = .ok (.rdDigest n) := by decide

/-- `digest[4n+k]` is lane `k` of `st[n]` (R55). -/
theorem digestBytes_getElem? (q : Quad) (n : BitVec 2) (k : Fin 4) :
    (digestBytes q)[4 * n.toNat + k.val]? = some (lane (quadWord q n) k.val) := by
  fin_cases n <;> fin_cases k <;> rfl

/-- Settles O12: DIGESTn reads `st[n]`, whose lanes the digest's bytes are. -/
theorem digestBytesAreLittleEndianPerWord : Obligations.DigestBytesAreLittleEndianPerWord := by
  refine ⟨fun q => by simp [digestBytes], fun s n k => ⟨quadWord s.st n, rfl, decodeAccess_digestOff n, ?_⟩⟩
  rw [digestBytes_getElem?, lane_eq_ofNat]

theorem step_read_digest (n : BitVec 2) (s : State) :
    step (postNext (.access (regRead (digestOff n))) s) = .next (respond (.data (quadWord s.st n)) s) := by
  rw [step_postNext, performEvent_access (decodeAccess_digestOff n), exec, execRdDigest, answerRead]

theorem step_write_data (v : Word) (s : State) :
    step (postNext (.access (regWrite 0x0C v)) s) = .next (respond .ok (storeData v s)) := by
  have h : decodeAccess (regWrite 0x0C v) = .ok (.wrData v) := decodeAccess_eq (d := 0x4C) (by decide) v
  rw [step_postNext, performEvent_access h, exec_wrData_next]

/-- Settles O38: a register's transfer carries the lanes of its value, in both directions. -/
theorem busLanesStandAtRisingAddresses : Obligations.BusLanesStandAtRisingAddresses := by
  refine ⟨fun i off v => ⟨fun k => ?_, ?_⟩, fun p i s off hi hlegal => ?_, fun p i s n hi => ?_, fun p i s v bs hi hbs => ?_⟩
  · rw [← lane_eq_ofNat]
    exact byteAt_busBytes _ v k.isLt
  · exact wordFromBus_of_byteAt fun k => byteAt_busBytes _ v k.isLt
  · obtain ⟨w, hw⟩ := step_legal_read (a := regRead off) rfl hlegal s
    exact ⟨w, hw, platformReadBytes_of_step hi hw⟩
  · have haddr : Config.instanceBase i + 0x20 + 4 * n.toNat = registerAddress i (digestOff n) := by
      rw [registerAddress, digestOff_toNat, Nat.add_assoc]
    refine ⟨_, _, haddr ▸ platformReadBytes_of_step hi (step_read_digest n s), fun k => ?_⟩
    rw [haddr, byteAt_busBytes _ _ k.isLt, digestBytes_getElem?]
  · have hv : wordFromBus bs (registerAddress i 0x0C) = some v := wordFromBus_of_byteAt hbs
    change platformWriteBytes (registerAddress i 0x0C) bs p = _
    rw [platformWriteBytes, hv]
    exact platformAccess_of_step hi (step_write_data v s)

end Sys2Proof.Machine
end

section
/-! The compression: the round functions bit by bit, the length field's words, and the two forms of the 64 steps (R54, R119
to R123, R130). -/

namespace Sys2Proof.Machine

/-! ### The round functions -/

section
variable (x y z : Word) {j : Nat}

theorem roundF_getLsbD (hj : j < 32) :
    (roundF x y z).getLsbD j = (x.getLsbD j && y.getLsbD j || !x.getLsbD j && z.getLsbD j) := by
  simp [roundF, hj]

theorem roundG_getLsbD (hj : j < 32) :
    (roundG x y z).getLsbD j = (x.getLsbD j && z.getLsbD j || y.getLsbD j && !z.getLsbD j) := by
  simp [roundG, hj]

theorem roundH_getLsbD : (roundH x y z).getLsbD j = ((x.getLsbD j ^^ y.getLsbD j) ^^ z.getLsbD j) := by
  simp [roundH]

theorem roundI_getLsbD (hj : j < 32) :
    (roundI x y z).getLsbD j = (y.getLsbD j ^^ (x.getLsbD j || !z.getLsbD j)) := by
  simp [roundI, hj]

end

/-- The rows of R119's table, the three bits read as a number. -/
theorem truthTable_rows : ∀ a b c : Bool,
    let row := 4 * a.toNat + 2 * b.toNat + c.toNat
    (a && b || !a && c) = [false, true, false, true, false, false, true, true].getD row false ∧
    (a && c || b && !c) = [false, false, true, false, false, true, true, true].getD row false ∧
    ((a ^^ b) ^^ c) = [false, true, true, false, true, false, false, true].getD row false ∧
    (b ^^ (a || !c)) = [true, false, false, true, true, true, false, false].getD row false := by
  decide

/-- Settles O52: the functions work bit by bit, and the table lists their one-bit forms. -/
theorem roundFunctionsFollowTheTruthTable : Obligations.RoundFunctionsFollowTheTruthTable := by
  intro x y z j hj
  rw [roundF_getLsbD x y z hj, roundG_getLsbD x y z hj, roundH_getLsbD, roundI_getLsbD x y z hj]
  exact truthTable_rows _ _ _

/-! ### The length field -/

/-- Settles O55: `X[14]` and `X[15]` are made of the length's bytes 0 to 3 and 4 to 7. -/
theorem lengthFieldIsLittleEndian : Obligations.LengthFieldIsLittleEndian := by
  intro bits b h
  have hbyte : ∀ k : Fin 8, b[56 + k.val] = bits.extractLsb' (8 * k.val) 8 := fun k =>
    Option.some.inj ((h k).trans (by simp [le64bytes]))
  constructor
  · rw [← le32_extractLsb' bits 0]
    exact congr (congr (congr (congrArg le32 (hbyte 0)) (hbyte 1)) (hbyte 2)) (hbyte 3)
  · rw [← le32_extractLsb' bits 32]
    exact congr (congr (congr (congrArg le32 (hbyte 4)) (hbyte 5)) (hbyte 6)) (hbyte 7)

/-! ### Renaming and permuting -/

/-- The working registers of the renaming form after `i` steps, put back under the names that RFC 1321's form, which renames
none, has for them. -/
def rfcNames (i : Nat) (r : Quad) : Quad :=
  if i % 4 = 0 then r
  else if i % 4 = 1 then ⟨r.b, r.c, r.d, r.a⟩
  else if i % 4 = 2 then ⟨r.c, r.d, r.a, r.b⟩
  else ⟨r.d, r.a, r.b, r.c⟩

/-- One step of each form computes the same new word and puts it under the same name. -/
theorem rfcStep_rfcNames (blk : Block) (r : Quad) (i : Nat) :
    rfcStep blk (rfcNames i r) i = rfcNames (i + 1) (md5Step blk r i) := by
  have hnext : (i + 1) % 4 = (i % 4 + 1) % 4 := by omega
  obtain h | h | h | h : i % 4 = 0 ∨ i % 4 = 1 ∨ i % 4 = 2 ∨ i % 4 = 3 := by omega
  all_goals simp [rfcStep, rfcNames, md5Step, hnext, h]

theorem md5Steps_succ (blk : Block) (h : Quad) (n : Nat) : md5Steps blk h (n + 1) = md5Step blk (md5Steps blk h n) n := by
  rw [md5Steps, List.range_succ, List.foldl_append, List.foldl_cons, List.foldl_nil, ← md5Steps]

theorem foldl_rfcStep (blk : Block) (h : Quad) (n : Nat) :
    (List.range n).foldl (rfcStep blk) h = rfcNames n (md5Steps blk h n) := by
  induction n with
  | zero => rfl
  | succ n ih =>
    rw [List.range_succ, List.foldl_append, ih, List.foldl_cons, List.foldl_nil, rfcStep_rfcNames, md5Steps_succ]

/-- Settles O57: after 64 steps, a multiple of 4, each register is back under its own name. -/
theorem renamingFormEqualsPermutingForm : Obligations.RenamingFormEqualsPermutingForm := by
  intro blk h
  rw [foldl_rfcStep, rfcNames, if_pos (by decide)]

end Sys2Proof.Machine
end

section
/-! Reset, and what INIT leaves (R40, R170, R171, R173); an `absorb` with no encoding (R99, R155); the host's view after a
bus error (R154). -/

namespace Sys2Proof.Machine

/-! ### Reset and INIT -/

/-- INIT leaves the reset state but for what R101 keeps and the model's own fields (R40). -/
theorem reset_of_init (s : State) : ∃ t, exec .init s = .next t ∧
    State.reset =
      { t with errCmd := false, errSeq := false, data := 0, pending := State.reset.pending,
               response := State.reset.response } :=
  ⟨_, exec_init_next s, rfl⟩

/-- Settles O1: the values are R40's, and the buffer is zero at every place. -/
theorem resetStateHoldsTheSpecValues : Obligations.ResetStateHoldsTheSpecValues :=
  ⟨rfl, by decide, rfl, rfl, rfl, rfl, rfl, rfl, reset_of_init⟩

/-- Settles O2: the reset event is always performed, and writes every element. -/
theorem resetEventSetsEveryElement : Obligations.ResetEventSetsEveryElement := by
  intro s
  rw [step_postNext, performEvent, applyReset_eq, iv, zeroBlock]

/-- Settles O4: INIT writes the context, CLRERR the flags and `wr DATA` the rest. -/
theorem initClrerrWrDataReachReset : Obligations.InitClrerrWrDataReachReset := by
  refine ⟨fun s => ?_, reset_of_init⟩
  rw [runInstrs_cons_next (exec_init_next s)]
  rfl

/-- What INIT keeps of a state is all it looks at (R101). -/
theorem initContext_congr {s t : State} (hcmd : s.errCmd = t.errCmd) (hseq : s.errSeq = t.errSeq)
    (hdata : s.data = t.data) (hpending : s.pending = t.pending) :
    respond .ok (initContext s) = respond .ok (initContext t) := by
  simp only [initContext, respond, hcmd, hseq, hdata, hpending]

/-- Settles O5: INIT and reset write every element that they do not keep. -/
theorem initForgetsHistory : Obligations.InitForgetsHistory := by
  refine ⟨fun s t hcmd hseq hdata hpending => ?_, fun s t hpending => ?_⟩
  · rw [exec_init_next, exec_init_next, initContext_congr hcmd hseq hdata hpending]
  · rw [step_postNext, step_postNext, performEvent, performEvent, applyReset_eq, applyReset_eq, hpending]

/-! ### Errors -/

theorem legalCmd_absorb_out_of_range :
    ∀ n : BitVec 3, 5 ≤ n.toNat → legalCmd (0x00000002 + n.setWidth 32 * 16) = false := by
  decide

/-- Settles O25: the instruction tests its count before `done`, and its word is illegal. -/
theorem absorbOutOfRangeRecordsErrCmd : Obligations.AbsorbOutOfRangeRecordsErrCmd := by
  intro s n hn
  have hout : countInRange n = false := decide_eq_false (by omega)
  exact ⟨execAbsorb_out hout s, exec_wrCmd_illegal (legalCmd_absorb_out_of_range n hn) s⟩

/-- Settles O29: the host's reply to the illegal access leaves it with the state it had. -/
theorem laterAccessesGoOnAfterABusError : Obligations.LaterAccessesGoOnAfterABusError := by
  intro a es s h
  obtain ⟨-, hreply⟩ := illegalAccessIsABusError s a h
  simp only [transcript, hreply]
  cases transcript es s <;> rfl

end Sys2Proof.Machine
end
